-- ==== Sys2Proof/Word.lean ====
section
/-! DEFINITION. The widths of the engine's bit values (00_scope.md R9). -/

namespace Sys2Proof

/-- A command word `w[15:0]` (30_encoding.md R70). -/
abbrev Word := BitVec 16

/-- A byte on the controller's bus (00_scope.md R9). -/
abbrev Byte := BitVec 8

/-- A nibble: bit i is driven on D(4+i) (10_state.md R24). -/
abbrev Nibble := BitVec 4

end Sys2Proof
end

