-- ==== Sys2Proof/Config.lean ====
section
/-! DEFINITION. The configuration record of 00_scope.md R7, fixed at construction, and the one free value. -/

namespace Sys2Proof

/-- A non-negative rational number, `num / den`: a duration in seconds or a frequency in Hz.
DESIGN CHOICE (notes/assumptions/4.md): the record's durations and frequency are rationals. -/
structure Ratio where
  num : Nat
  den : Nat
  deriving DecidableEq, Repr

/-- The six LCD lines (00_scope.md R3, 10_state.md R21). -/
inductive LcdLine where
  | rs | e | d4 | d5 | d6 | d7
  deriving DecidableEq, Repr

/-- The host GPIO identifiers of the six lines (10_state.md R25). -/
structure PinMap where
  rs : Nat
  e : Nat
  d4 : Nat
  d5 : Nat
  d6 : Nat
  d7 : Nat
  deriving DecidableEq, Repr

/-- `LINE_BASE[1..4]`, the "set DDRAM address" command byte of each line (20_memory.md R57). -/
structure LineBases where
  line1 : Byte
  line2 : Byte
  line3 : Byte
  line4 : Byte
  deriving DecidableEq, Repr

/-- The configuration record of 00_scope.md R7. The cycle counts `N_X = ceil(T_X * F_CLK)` are computed
from it in Machine/Timing.lean. -/
structure Config where
  /-- `WIDTH`, characters per display line. -/
  width : Nat
  /-- `LINE_BASE[1..4]`. -/
  lineBase : LineBases
  /-- `LINES`, the attached display's line count; no engine rule reads it (42_line_addressing.md R152). -/
  lines : Nat
  /-- `PIN_RS`, `PIN_E`, `PIN_D4` .. `PIN_D7`. -/
  pins : PinMap
  /-- `T_SETTLE`, seconds. -/
  tSettle : Ratio
  /-- `T_PULSE`, seconds. -/
  tPulse : Ratio
  /-- `T_CLEAR`, seconds, at least 0.45. -/
  tClear : Ratio
  /-- `T_POWERUP`, seconds. -/
  tPowerup : Ratio
  /-- `T_UNIT`, seconds. -/
  tUnit : Ratio
  /-- `F_CLK`, Hz; OPEN in the spec (92_eei_decisions.md D2). -/
  fClk : Ratio
  /-- `CNT_W`, bits; OPEN in the spec (D27). -/
  cntW : Nat
  /-- `EXTEND_LINES` (D19). -/
  extendLines : Bool
  /-- `TYPED_SPEED_DEFAULT`, seconds; OPEN in the spec (D20). -/
  typedSpeedDefault : Ratio
  deriving DecidableEq, Repr

/-- FREE VALUE (93_implementation_defined.md U4, 92_eei_decisions.md D23; notes/assumptions/9.md): the level the
controller sees on an undriven line, for each line and each edge independently. It has no body, so nothing can be
proved of it. -/
opaque Config.undrivenLevel : Nat → LcdLine → Bool

end Sys2Proof
end

