-- ==== Sys2Proof/Machine/Timing.lean ====
section
/-! DEFINITION. Cycle counts of a configuration, when a configuration has a meaning, and the reference sets
(00_scope.md R7, R8; 10_state.md R31; 70_reset_and_hazards.md R254). -/

namespace Sys2Proof

/-- `ceil(a * b)`. -/
def Ratio.ceilMul (a b : Ratio) : Nat :=
  (a.num * b.num + a.den * b.den - 1) / (a.den * b.den)

/-- `ceil(a / b)`. -/
def Ratio.ceilDiv (a b : Ratio) : Nat :=
  (a.num * b.den + a.den * b.num - 1) / (a.den * b.num)

/-- `k * a`. -/
def Ratio.scale (k : Nat) (a : Ratio) : Ratio :=
  { a with num := k * a.num }

/-- `a ≤ b`, for ratios with positive denominators. -/
def Ratio.leq (a b : Ratio) : Bool :=
  decide (a.num * b.den ≤ b.num * a.den)

namespace Config

/-- A requested duration in clock cycles, `ceil(t * F_CLK)` (10_state.md R31). -/
def cycles (c : Config) (t : Ratio) : Nat := t.ceilMul c.fClk

/-- `N_SETTLE` (R7). -/
def nSettle (c : Config) : Nat := c.cycles c.tSettle

/-- `N_PULSE` (R7). -/
def nPulse (c : Config) : Nat := c.cycles c.tPulse

/-- `N_CLEAR` (R7). -/
def nClear (c : Config) : Nat := c.cycles c.tClear

/-- `N_POWERUP` (R7). -/
def nPowerup (c : Config) : Nat := c.cycles c.tPowerup

/-- `N_UNIT` (R7). -/
def nUnit (c : Config) : Nat := c.cycles c.tUnit

/-- `T_X = 4 * N_SETTLE + 2 * N_PULSE`, one byte transfer (41_byte_transfer.md R138). -/
def transferCycles (c : Config) : Nat := 4 * c.nSettle + 2 * c.nPulse

/-- The largest count ever loaded into the timer (R7, 92_eei_decisions.md D27). -/
def maxLoad (c : Config) : Nat :=
  max c.nSettle (max c.nPulse (max c.nClear (max c.nPowerup (4095 * c.nUnit))))

/-- Every ratio of the record is a number: no denominator is 0 (notes/assumptions/4.md). -/
def ratiosOk (c : Config) : Bool :=
  decide (0 < c.tSettle.den ∧ 0 < c.tPulse.den ∧ 0 < c.tClear.den ∧ 0 < c.tPowerup.den ∧ 0 < c.tUnit.den
    ∧ 0 < c.fClk.den ∧ 0 < c.typedSpeedDefault.den)

/-- Boot requirement (1) of 70_reset_and_hazards.md R254: positive counts, `T_CLEAR >= 0.45 s`, and a counter wide
enough for the largest load. -/
def valid (c : Config) : Bool :=
  c.ratiosOk && decide (1 ≤ c.nSettle ∧ 1 ≤ c.nPulse ∧ 1 ≤ c.nClear ∧ 1 ≤ c.nUnit)
    && Ratio.leq ⟨45, 100⟩ c.tClear && decide (c.maxLoad < 2 ^ c.cntW)

/-- The GPIO identifier of a line (10_state.md R25). -/
def pin (c : Config) : LcdLine → Nat
  | .rs => c.pins.rs
  | .e => c.pins.e
  | .d4 => c.pins.d4
  | .d5 => c.pins.d5
  | .d6 => c.pins.d6
  | .d7 => c.pins.d7

/-- `P_REF` of 00_scope.md R8 with R7's defaults: one cycle is one millisecond. DESIGN CHOICE
(notes/assumptions/3.md): the OPEN `CNT_W` is 12, the least that holds 4095, and `TYPED_SPEED_DEFAULT` is 0 s. -/
def pRef : Config where
  width := 16
  lineBase := { line1 := 0x80, line2 := 0xC0, line3 := 0x94, line4 := 0xD4 }
  lines := 2
  pins := { rs := 16, e := 17, d4 := 22, d5 := 19, d6 := 20, d7 := 21 }
  tSettle := ⟨1, 1000⟩
  tPulse := ⟨1, 1000⟩
  tClear := ⟨45, 100⟩
  tPowerup := ⟨0, 1⟩
  tUnit := ⟨1, 1000⟩
  fClk := ⟨1000, 1⟩
  cntW := 12
  extendLines := false
  typedSpeedDefault := ⟨0, 1⟩

/-- `P_TOY` of 00_scope.md R8: `N_SETTLE = 2`, `N_PULSE = 3`, `N_CLEAR = 5`, `N_UNIT = 1`, `N_POWERUP = 0`. R8 gives
the counts only; the durations and the frequency of 10 Hz that yield them are this model's
(notes/assumptions/3.md). -/
def pToy : Config :=
  { pRef with tSettle := ⟨2, 10⟩, tPulse := ⟨3, 10⟩, fClk := ⟨10, 1⟩ }

end Config

end Sys2Proof
end

