-- ==== Sys2Proof/Syntax.lean ====
section
/-! DEFINITION. The engine's commands, one constructor per row of spec/opcode_table.json (30_encoding.md R71). -/

namespace Sys2Proof

/-- An engine command (30_encoding.md R71). Operands as R73 gives them: DATA 8 bits, the line number n
(1..4, checked by `Instr.wf`), COUNT 12 bits. -/
inductive Instr where
  /-- `NOP` (45_control.md R200). -/
  | nop
  /-- `XFER.C DATA` (41_byte_transfer.md R124). -/
  | xferC (data : Byte)
  /-- `XFER.D DATA` (41_byte_transfer.md R125). -/
  | xferD (data : Byte)
  /-- `LINE n` (42_line_addressing.md R150). -/
  | line (n : Nat)
  /-- `CLEAR` (44_clear.md R190). -/
  | clear
  /-- `DELAY COUNT` (45_control.md R202). -/
  | delay (count : BitVec 12)
  deriving DecidableEq, Repr

end Sys2Proof
end

