-- ==== Sys2Proof/Machine/State.lean ====
section
/-! DEFINITION. The engine's state (10_state.md R22 to R40), as plain data, and the state after reset (R38). -/

namespace Sys2Proof.Machine

/-- The sequencer state `st` (10_state.md R26). -/
inductive Seq where
  | boot | idle | nib | wait
  deriving DecidableEq, Repr

/-- The micro-program names (10_state.md R27). -/
inductive Prog where
  | init | xfer | line | clear | delay | nop
  deriving DecidableEq, Repr

/-- Which nibble of the byte is on the lines (10_state.md R29). -/
inductive Half where
  | hi | lo
  deriving DecidableEq, Repr

/-- The phase of a nibble: settle before the pulse, Enable high, settle after it (10_state.md R29). -/
inductive Phase where
  | pre | pulse | post
  deriving DecidableEq, Repr

/-- A transaction-level trace event (00_scope.md R11). -/
inductive Event where
  /-- `Cfg(p)`: line `p` configured as output. -/
  | cfg (l : LcdLine)
  /-- `Set(p, v)`: line `p` driven to level `v`. -/
  | set (l : LcdLine) (v : Bool)
  /-- `Sleep(t)`: a wait of requested duration `t` seconds in which no line changes. -/
  | sleep (t : Ratio)
  deriving DecidableEq, Repr

/-- A micro-operation (30_encoding.md R81). `w n t` waits `n` cycles, the realization of a requested wait of `t`
seconds. -/
inductive MicroOp where
  | cfg
  | x (b : Byte) (m : Bool)
  | w (n : Nat) (t : Ratio)
  | fin
  deriving DecidableEq, Repr

/-- The levels of the input ports at one clock edge (10_state.md R21). -/
structure Ports where
  rst : Bool
  cmdValid : Bool
  cmdWord : Word
  deriving DecidableEq, Repr

/-- One move of the host's script (60_exceptions.md R240; notes/assumptions/2.md). -/
inductive HostMove where
  /-- Present the word and hold it until the engine accepts it, as R240 asks of a host. -/
  | present (w : Word)
  /-- Drive the three inputs to these levels for one edge, whatever the engine answers: an idle edge, a reset, or a
  host that breaks its duty (93_implementation_defined.md U7). -/
  | levels (p : Ports)
  /-- Another agent drives an LCD line, which R20 and 70_reset_and_hazards.md R265 forbid. -/
  | foreignDrive (l : LcdLine) (v : Bool)
  deriving DecidableEq, Repr

/-- Why the machine stops with a fault. -/
inductive Fault where
  /-- Raised by `step` when the host's script drives an LCD line (93_implementation_defined.md U10 names `fault`;
  notes/assumptions/8.md). Safe. -/
  | foreignDriver
  /-- Raised by `enterFrom` when the sequencer indexes beyond its micro-program; no state that meets `Safety.EngineInv` does
  so (10_state.md R35, notes/assumptions/7.md). Safe. -/
  | noMicroOp
  deriving DecidableEq, Repr

/-- Why an instruction or a step has no meaning. -/
inductive Refusal where
  /-- Raised by an arm of `exec` whose instruction has no meaning yet; no arm is left so. Safe. -/
  | notModelled (mnemonic : String)
  /-- Raised by `step` on a configuration that breaks 70_reset_and_hazards.md R254 (1)
  (93_implementation_defined.md U6 names `refuse`). Safe. -/
  | invalidConfig
  /-- Raised by `execLine` for a line number outside 1..4, which no word encodes (30_encoding.md R73;
  notes/assumptions/11.md). Safe. -/
  | lineNotEncodable
  deriving DecidableEq, Repr

/-- The engine: every register of 10_state.md R22 to R32, the trace of R40, the configuration record of 00_scope.md
R7, and the model's own two fields. -/
structure State where
  /-- The configuration record (00_scope.md R7); written by nothing (10_state.md R39; notes/assumptions/3.md). -/
  cfg : Config
  /-- Output enable (R23). -/
  oe : Bool
  /-- RS latch (R22). -/
  rs : Bool
  /-- Enable latch (R22). -/
  e : Bool
  /-- Data latches, `d[i]` on D(4+i) (R22, R24). -/
  d : Nibble
  /-- Sequencer state (R26). -/
  st : Seq
  /-- The micro-program being run (R27). -/
  prog : Prog
  /-- The index of the current micro-operation (R27). -/
  pidx : BitVec 4
  /-- Operand latch `op_data` (R28). -/
  opData : Byte
  /-- Operand latch `op_m` (R28). -/
  opM : Bool
  /-- Operand latch `op_line` (R28). -/
  opLine : BitVec 2
  /-- Operand latch `op_count` (R28). -/
  opCount : BitVec 12
  /-- The byte being transferred (R29). -/
  curByte : Byte
  /-- Which nibble is on the lines (R29). -/
  half : Half
  /-- The phase of the nibble (R29). -/
  ph : Phase
  /-- Cycles left in the current phase or wait (R30), `CNT_W` bits: `Safety.EngineInv` says it fits
  (notes/assumptions/15.md). -/
  cnt : Nat
  /-- The bring-up program has completed since the last reset (R32). -/
  initDone : Bool
  /-- A reserved word was accepted since the last reset (R32). -/
  err : Bool
  /-- The event trace produced so far, oldest first (R40; notes/assumptions/5.md). -/
  trace : List Event
  /-- The model's own: what the host does at the coming edges, first first (notes/assumptions/2.md). -/
  host : List HostMove
  /-- The model's own: how many edges have passed, the index of the free value (notes/assumptions/9.md). -/
  edgeNo : Nat
  deriving DecidableEq, Repr

/-- The transaction-level state of 10_state.md R40. -/
structure TLState where
  oe : Bool
  rs : Bool
  e : Bool
  d : Nibble
  initDone : Bool
  err : Bool
  trace : List Event
  deriving DecidableEq, Repr

/-- The machine right after reset (10_state.md R38, R40), under `P_REF` (notes/assumptions/3.md), with no host move
waiting. -/
def State.reset : State where
  cfg := Config.pRef
  oe := false
  rs := false
  e := false
  d := 0#4
  st := .boot
  prog := .init
  pidx := 0#4
  opData := 0#8
  opM := false
  opLine := 0#2
  opCount := 0#12
  curByte := 0#8
  half := .hi
  ph := .pre
  cnt := 0
  initDone := false
  err := false
  trace := []
  host := []
  edgeNo := 0

end Sys2Proof.Machine
end

