-- ==== Sys2Proof/Machine/Flags.lean ====
section
/-! DEFINITION. The status flags and the handshake outputs (10_state.md R32, R33). -/

namespace Sys2Proof.Machine

/-- `cmd_ready = (st = IDLE) and not rst` (10_state.md R33). -/
def cmdReady (p : Ports) (s : State) : Bool := decide (s.st = .idle) && !p.rst

/-- `busy = not cmd_ready` (10_state.md R33). -/
def busy (p : Ports) (s : State) : Bool := !cmdReady p s

/-- A command is accepted at an edge exactly when `cmd_valid = 1` and `cmd_ready = 1` (10_state.md R33). -/
def accepts (p : Ports) (s : State) : Bool := p.cmdValid && cmdReady p s

/-- `err <- 1`, all that a reserved word does (45_control.md R204): the engine has no trap entry
(60_exceptions.md R222). -/
def setErr (s : State) : State := { s with err := true }

/-- `if prog = P_INIT then init_done <- 1`, at `END` (41_byte_transfer.md R131, 40_init_sequencer.md R104). -/
def endFlags (s : State) : State := { s with initDone := s.initDone || decide (s.prog = .init) }

/-- A move of the host's script that presents a command: it sets `cmd_valid` (60_exceptions.md R240;
notes/assumptions/23.md). -/
def HostMove.presents : HostMove → Bool
  | .present _ => true
  | .levels p => p.cmdValid
  | .foreignDrive _ _ => false

/-- A run of a command stream is over: IDLE, brought up, and the host has no further command to present, whatever quiet
or reset edges its script still holds (60_exceptions.md R241). -/
def runOver (s : State) : Bool := decide (s.st = .idle) && s.initDone && !s.host.any HostMove.presents

end Sys2Proof.Machine
end

