-- ==== Sys2Proof/WellFormed.lean ====
section
/-! DEFINITION. Which commands have an encoding (30_encoding.md R73, 42_line_addressing.md R152). -/

namespace Sys2Proof

/-- A line number is 1..4; no other has an encoding (30_encoding.md R73). Every DATA and every COUNT has one. -/
def Instr.wf : Instr → Bool
  | .line n => decide (1 ≤ n ∧ n ≤ 4)
  | .nop => true
  | .xferC _ => true
  | .xferD _ => true
  | .clear => true
  | .delay _ => true

end Sys2Proof
end

