-- ==== Sys2Proof/Decode.lean ====
section
/-! DEFINITION. The command-word decoder and encoder (30_encoding.md R70 to R76), both written from R71's table. -/

namespace Sys2Proof

/-- Why a word is reserved: the five groups of 30_encoding.md R75. -/
inductive ReservedWord where
  /-- `OP = 0x0` but not 0x0000. -/
  | nopBits
  /-- `OP = 0x1` with `w[11:9] != 0`. -/
  | xferBits
  /-- `OP = 0x2` with `w[11:10] != 0` or `w[7:0] != 0`. -/
  | lineBits
  /-- `OP = 0x3` but not 0x3000. -/
  | clearBits
  /-- `OP` in 0x5..0xF. -/
  | opcode
  deriving DecidableEq, Repr

/-- What a word is: a command or reserved, never both (30_encoding.md R76). -/
inductive Decoded where
  | legal (i : Instr)
  | reserved (why : ReservedWord)
  deriving DecidableEq, Repr

/-- `OP = w[15:12]` (30_encoding.md R70). -/
def wordOp (w : Word) : BitVec 4 := w.extractLsb' 12 4

/-- `DATA = w[7:0]` (30_encoding.md R73). -/
def wordData (w : Word) : Byte := w.extractLsb' 0 8

/-- `M = w[8]` (30_encoding.md R72, R73). -/
def wordM (w : Word) : Bool := w.getLsbD 8

/-- `L = w[9:8]` (30_encoding.md R73). -/
def wordL (w : Word) : BitVec 2 := w.extractLsb' 8 2

/-- `COUNT = w[11:0]` (30_encoding.md R73). -/
def wordCount (w : Word) : BitVec 12 := w.extractLsb' 0 12

/-- The line number `n = zext(L) + 1` (30_encoding.md R73). -/
def lineNumber (l : BitVec 2) : Nat := l.toNat + 1

/-- The field `L = n - 1` (42_line_addressing.md R150). -/
def lineField (n : Nat) : BitVec 2 := BitVec.ofNat 2 (n - 1)

/-- The decoder of 30_encoding.md R71 with R74's reserved-zero fields: total on every word, refusing the words of R75
by name. -/
def decode (w : Word) : Decoded :=
  if wordOp w = 0x0 then
    if w = 0x0000 then .legal .nop else .reserved .nopBits
  else if wordOp w = 0x1 then
    if w.extractLsb' 9 3 = 0 then
      if wordM w then .legal (.xferD (wordData w)) else .legal (.xferC (wordData w))
    else .reserved .xferBits
  else if wordOp w = 0x2 then
    if w.extractLsb' 10 2 = 0 ∧ wordData w = 0 then .legal (.line (lineNumber (wordL w))) else .reserved .lineBits
  else if wordOp w = 0x3 then
    if w = 0x3000 then .legal .clear else .reserved .clearBits
  else if wordOp w = 0x4 then .legal (.delay (wordCount w))
  else .reserved .opcode

/-- The word of a well-formed command, field by field from 30_encoding.md R70 and R71. -/
def encode : Instr → Word
  | .nop => 0x0000#16
  | .xferC b => 0x10#8 ++ b
  | .xferD b => 0x11#8 ++ b
  | .line n => 0b001000#6 ++ lineField n ++ 0x00#8
  | .clear => 0x3000#16
  | .delay c => 0x4#4 ++ c

/-- The instruction the decoder reads from a table word: one 16-bit word, presented in parallel, with no byte order
(20_memory.md R51). -/
def decodeTableWord (nbits w : Nat) : Option Instr :=
  if nbits ≤ 16 then
    match decode (BitVec.ofNat 16 (w % 2 ^ nbits)) with
    | .legal i => some i
    | .reserved _ => none
  else none

end Sys2Proof
end

