-- ==== Sys2Proof/Machine/Operands.lean ====
section
/-! DEFINITION. Operand forms: the latched fields of a command word, the line base bytes, the two nibbles of a byte
and the line a nibble bit drives (30_encoding.md R73, R77; 20_memory.md R51, R57). -/

namespace Sys2Proof.Machine

/-- The high nibble `b[7:4]`, sent first (20_memory.md R51). -/
def hiNibble (b : Byte) : Nibble := b.extractLsb' 4 4

/-- The low nibble `b[3:0]`, sent second (20_memory.md R51). -/
def loNibble (b : Byte) : Nibble := b.extractLsb' 0 4

/-- The nibble of a byte that a half names (10_state.md R29). -/
def halfNibble (h : Half) (b : Byte) : Nibble :=
  match h with
  | .hi => hiNibble b
  | .lo => loNibble b

/-- `LINE_BASE[L + 1]` for the field `L` of a LINE word (20_memory.md R57, 30_encoding.md R80). -/
def lineBaseOf (b : LineBases) (l : BitVec 2) : Byte :=
  match l.toNat with
  | 0 => b.line1
  | 1 => b.line2
  | 2 => b.line3
  | _ => b.line4

/-- `LINE_BASE[n]` for a line number n = 1..4 (20_memory.md R57). -/
def lineBase (c : Config) (n : Nat) : Byte := lineBaseOf c.lineBase (lineField n)

/-- The operand latches of an accepted word, all four whatever the format (30_encoding.md R77). -/
def latch (w : Word) (s : State) : State :=
  { s with opData := wordData w, opM := wordM w, opLine := wordL w, opCount := wordCount w }

end Sys2Proof.Machine
end

