-- ==== Sys2Proof/Machine/Transaction.lean ====
section
/-! DEFINITION. The transaction level: event lists, what they do to the lines, and one command at a time
(41_byte_transfer.md R120 to R125, R140, R141; 40_init_sequencer.md R100; 44_clear.md R190; 45_control.md R202). -/

namespace Sys2Proof.Machine

/-- Steps 2 and 3 of a nibble: all four data lines low, then the lines of the 1 bits high, each in the order D4 to D7
(41_byte_transfer.md R122, R123). -/
def dataEvents (n : Nibble) : List Event :=
  [Event.set LcdLine.d4 false, Event.set LcdLine.d5 false, Event.set LcdLine.d6 false, Event.set LcdLine.d7 false]
    ++ (if n.getLsbD 0 then [Event.set LcdLine.d4 true] else [])
    ++ (if n.getLsbD 1 then [Event.set LcdLine.d5 true] else [])
    ++ (if n.getLsbD 2 then [Event.set LcdLine.d6 true] else [])
    ++ (if n.getLsbD 3 then [Event.set LcdLine.d7 true] else [])

/-- `nibble(n)` (41_byte_transfer.md R122). -/
def nibble (c : Config) (n : Nibble) : List Event :=
  dataEvents n
    ++ [Event.sleep c.tSettle, Event.set LcdLine.e true, Event.sleep c.tPulse, Event.set LcdLine.e false,
      Event.sleep c.tSettle]

/-- `xfer(b, m)` (41_byte_transfer.md R121). -/
def xfer (c : Config) (b : Byte) (m : Bool) : List Event :=
  [Event.set LcdLine.rs m] ++ nibble c (hiNibble b) ++ nibble c (loNibble b)

/-- The six `Cfg` events in the source's order (40_init_sequencer.md R101). -/
def cfgEvents : List Event :=
  [LcdLine.rs, LcdLine.e, LcdLine.d4, LcdLine.d5, LcdLine.d6, LcdLine.d7].map Event.cfg

/-- `Sleep(t)` if the wait takes any time, as R100 and 45_control.md R202 write it. -/
def sleepIf (n : Nat) (t : Ratio) : List Event := if n = 0 then [] else [Event.sleep t]

/-- INIT, the event list of the bring-up program (40_init_sequencer.md R100). -/
def initEvents (c : Config) : List Event :=
  cfgEvents ++ sleepIf c.tPowerup.num c.tPowerup
    ++ xfer c 0x33 false ++ xfer c 0x32 false ++ xfer c 0x28 false
    ++ xfer c 0x0C false ++ xfer c 0x06 false ++ xfer c 0x01 false

/-- The event list of a command: R124, R125, R150, R190, R200, R202. -/
def instrEvents (c : Config) : Instr → List Event
  | .nop => []
  | .xferC b => xfer c b false
  | .xferD b => xfer c b true
  | .line n => xfer c (lineBase c n) false
  | .clear => xfer c 0x06 false ++ xfer c 0x01 false ++ [Event.sleep c.tClear]
  | .delay k => sleepIf k.toNat (Ratio.scale k.toNat c.tUnit)

/-- The levels on the six lines and the output enable. -/
structure Lines where
  oe : Bool
  rs : Bool
  e : Bool
  d : Nibble
  deriving DecidableEq, Repr

/-- The lines after reset: undriven, every latch 0 (10_state.md R38). -/
def Lines.reset : Lines := { oe := false, rs := false, e := false, d := 0#4 }

/-- Data latch `i` set to `v`, the others kept (10_state.md R24). -/
def setDataBit (d : Nibble) (i : Nat) (v : Bool) : Nibble :=
  if v then d ||| (1#4 <<< i) else d &&& ~~~(1#4 <<< i)

/-- What one event does to the lines (00_scope.md R11). The one `oe` bit is 1 once all six lines are configured
(10_state.md R23), so the last of the six `Cfg` events sets it (notes/assumptions/6.md). -/
def Lines.apply (l : Lines) : Event → Lines
  | .cfg .d7 => { l with oe := true }
  | .cfg _ => l
  | .set .rs v => { l with rs := v }
  | .set .e v => { l with e := v }
  | .set .d4 v => { l with d := setDataBit l.d 0 v }
  | .set .d5 v => { l with d := setDataBit l.d 1 v }
  | .set .d6 v => { l with d := setDataBit l.d 2 v }
  | .set .d7 v => { l with d := setDataBit l.d 3 v }
  | .sleep _ => l

/-- A list of events applied in order (41_byte_transfer.md R140 (a)). -/
def Lines.applyAll (l : Lines) (evs : List Event) : Lines := evs.foldl Lines.apply l

/-- The lines and output enable of the engine. -/
def State.lines (s : State) : Lines := { oe := s.oe, rs := s.rs, e := s.e, d := s.d }

/-- The transaction-level registers of 10_state.md R40, read off the engine. -/
def State.tl (s : State) : TLState :=
  { oe := s.oe, rs := s.rs, e := s.e, d := s.d, initDone := s.initDone, err := s.err, trace := s.trace }

/-- The lines of a transaction-level state. -/
def TLState.lines (t : TLState) : Lines := { oe := t.oe, rs := t.rs, e := t.e, d := t.d }

/-- Append events to the trace and apply them to the lines. -/
def TLState.emit (evs : List Event) (t : TLState) : TLState :=
  let l := t.lines.applyAll evs
  { t with oe := l.oe, rs := l.rs, e := l.e, d := l.d, trace := t.trace ++ evs }

/-- The initial transaction-level state (10_state.md R40). -/
def TLState.reset : TLState :=
  { oe := false, rs := false, e := false, d := 0#4, initDone := false, err := false, trace := [] }

/-- The first transaction-level step, the bring-up program (10_state.md R40, 40_init_sequencer.md R100). -/
def tlInit (c : Config) (t : TLState) : TLState := { t.emit (initEvents c) with initDone := true }

/-- One command at the transaction level (20_memory.md R61). -/
def tlExec (c : Config) (i : Instr) (t : TLState) : TLState := t.emit (instrEvents c i)

/-- One accepted word at the transaction level: a command, or a reserved word (45_control.md R204). -/
def tlWord (c : Config) (t : TLState) (w : Word) : TLState :=
  match decode w with
  | .legal i => tlExec c i t
  | .reserved _ => { t with err := true }

/-- A command stream at the transaction level, from reset: bring-up, then the words in acceptance order
(20_memory.md R61). -/
def tlRun (c : Config) (ws : List Word) : TLState := ws.foldl (tlWord c) (tlInit c TLState.reset)

/-- The 5-bit phases `{RS, D7, D6, D5, D4}` (30_encoding.md R78) on the lines at each edge of Enable to level `v`: at the
rising edges for `true`, at the falling edges for `false`. -/
def phasesAt (v : Bool) (l : Lines) : List Event → List (BitVec 5)
  | [] => []
  | ev :: evs =>
    let l' := l.apply ev
    if ev = .set .e v then (BitVec.ofBool l'.rs ++ l'.d) :: phasesAt v l' evs else phasesAt v l' evs

/-- The phases the controller receives, one per Enable pulse (30_encoding.md R78). DESIGN CHOICE
(notes/assumptions/24.md): the spec leaves open which edge of the pulse latches them (91_not_in_source.md, 20_memory.md's
"Which Enable edge latches"), and the model takes the levels at the rising edge. -/
def phases (l : Lines) (evs : List Event) : List (BitVec 5) := phasesAt true l evs

/-- How many Enable pulses a trace holds (20_memory.md R52). -/
def pulses (evs : List Event) : Nat := evs.countP (fun ev => decide (ev = .set .e true))

/-- The requested durations of a trace, as the source's fake delay primitive records them (41_byte_transfer.md R141). -/
def requests : List Event → List Ratio
  | [] => []
  | .sleep t :: evs => t :: requests evs
  | _ :: evs => requests evs

/-- A realization of the transaction level waits at least each requested duration, with no upper bound
(41_byte_transfer.md R141, 93_implementation_defined.md U11): `real` are the realized waits, in order. -/
def realizes (evs : List Event) (real : List Ratio) : Bool :=
  decide ((requests evs).length = real.length) && ((requests evs).zip real).all (fun p => Ratio.leq p.1 p.2)

end Sys2Proof.Machine
end

