-- ==== Sys2Proof/Machine/Ops.lean ====
section
/-! DEFINITION. The shared operations: micro-programs and the sequencer (30_encoding.md R80, R81;
41_byte_transfer.md R131 to R135), accepting a word (30_encoding.md R77), reset (10_state.md R38), a reserved word
(45_control.md R204), and the line outputs (10_state.md R23). The engine takes no exception and returns from none
(60_exceptions.md R222, R223): `reservedWord` is all there is. -/

namespace Sys2Proof.Machine

/-- What a step or an instruction answers. -/
abbrev Out := Host.Outcome State Fault Refusal

/-- Go on from a next state; a fault or a refusal stays. -/
def andThen (o : Out) (f : State → Out) : Out :=
  match o with
  | .next s => f s
  | .fault r => .fault r
  | .refused r => .refused r

/-- The next state an outcome answers, if it answers one. -/
def nextState? : Out → Option State
  | .next s => some s
  | .fault _ => none
  | .refused _ => none

/-! ### Micro-programs -/

/-- The micro-program table `MP` (30_encoding.md R80), a fixed function of the program's name, the operand latches and
the configuration. -/
def microProg (s : State) : List MicroOp :=
  match s.prog with
  | .init => [.cfg, .w s.cfg.nPowerup s.cfg.tPowerup, .x 0x33 false, .x 0x32 false, .x 0x28 false, .x 0x0C false,
      .x 0x06 false, .x 0x01 false, .fin]
  | .xfer => [.x s.opData s.opM, .fin]
  | .line => [.x (lineBaseOf s.cfg.lineBase s.opLine) false, .fin]
  | .clear => [.x 0x06 false, .x 0x01 false, .w s.cfg.nClear s.cfg.tClear, .fin]
  | .delay => [.w (s.opCount.toNat * s.cfg.nUnit) (Ratio.scale s.opCount.toNat s.cfg.tUnit), .fin]
  | .nop => [.fin]

/-- Append events to the trace (notes/assumptions/5.md). -/
def emit (evs : List Event) (s : State) : State := { s with trace := s.trace ++ evs }

/-- `enter(CFG)` without its `next()`: `oe <- 1` (40_init_sequencer.md R101). -/
def enterCfg (s : State) : State := { emit cfgEvents s with oe := true }

/-- `enter(X(b, m))` (41_byte_transfer.md R131). -/
def enterX (b : Byte) (m : Bool) (s : State) : State :=
  { emit ([.set .rs m] ++ dataEvents (hiNibble b) ++ [.sleep s.cfg.tSettle]) s with
    curByte := b, rs := m, d := hiNibble b, half := .hi, ph := .pre, cnt := s.cfg.nSettle, st := .nib }

/-- `enter(W(n))` for n > 0 (41_byte_transfer.md R131). -/
def enterW (n : Nat) (t : Ratio) (s : State) : State :=
  { emit [.sleep t] s with cnt := n, st := .wait }

/-- `enter(END)` (41_byte_transfer.md R131, R135). -/
def enterEnd (s : State) : State := { endFlags s with st := .idle }

/-- `pidx <- pidx + 1` (41_byte_transfer.md R131). -/
def nextIdx (s : State) : State := { s with pidx := s.pidx + 1#4 }

/-- `enter` of the first micro-operation of the list, the rest of the micro-program from `pidx` on: within one edge
`enter` and `next()` run until one takes time or is `END` (41_byte_transfer.md R131). An index beyond the program is a
fault, which no run meets (notes/assumptions/7.md). -/
def enterFrom : List MicroOp → State → Out
  | [], _ => .fault .noMicroOp
  | .cfg :: us, s => enterFrom us (nextIdx (enterCfg s))
  | .x b m :: _, s => .next (enterX b m s)
  | .w n t :: us, s => if n = 0 then enterFrom us (nextIdx s) else .next (enterW n t s)
  | .fin :: _, s => .next (enterEnd s)

/-- `next()`: enter the micro-operation at the incremented index (41_byte_transfer.md R131). -/
def nextOp (s : State) : Out := enterFrom ((microProg (nextIdx s)).drop (nextIdx s).pidx.toNat) (nextIdx s)

/-- `prog <- p; pidx <- 0; enter(MP[p][0])` (41_byte_transfer.md R137). -/
def startProg (p : Prog) (s : State) : Out :=
  enterFrom (microProg { s with prog := p, pidx := 0#4 }) { s with prog := p, pidx := 0#4 }

/-- The accepting edge of a legal word: latch the operands, set the program, enter its first micro-operation
(30_encoding.md R77). -/
def acceptWord (w : Word) (p : Prog) (s : State) : Out := startProg p (latch w s)

/-! ### The arms of the edge function (41_byte_transfer.md R137) -/

/-- Every register takes its reset value (10_state.md R38), the trace is empty again (R40); the configuration is no
register (R39), and the host and the edge count go on. -/
def resetEdge (s : State) : State :=
  { State.reset with cfg := s.cfg, host := s.host, edgeNo := s.edgeNo }

/-- The `BOOT` arm: start the bring-up program (40_init_sequencer.md R100). -/
def bootArm (s : State) : Out := startProg .init s

/-- The end of `PRE`: raise Enable (41_byte_transfer.md R133). -/
def raiseEnable (s : State) : State :=
  { emit [.set .e true, .sleep s.cfg.tPulse] s with e := true, ph := .pulse, cnt := s.cfg.nPulse }

/-- The end of `PULSE`: lower Enable (41_byte_transfer.md R133). -/
def lowerEnable (s : State) : State :=
  { emit [.set .e false, .sleep s.cfg.tSettle] s with e := false, ph := .post, cnt := s.cfg.nSettle }

/-- The end of the high nibble's `POST`: put the low nibble on the lines, RS not written (41_byte_transfer.md R133). -/
def lowNibble (s : State) : State :=
  { emit (dataEvents (loNibble s.curByte) ++ [.sleep s.cfg.tSettle]) s with
    half := .lo, d := loNibble s.curByte, ph := .pre, cnt := s.cfg.nSettle }

/-- The end of a phase of a nibble (41_byte_transfer.md R133). -/
def phaseEnd (s : State) : Out :=
  match s.ph with
  | .pre => .next (raiseEnable s)
  | .pulse => .next (lowerEnable s)
  | .post =>
    match s.half with
    | .hi => .next (lowNibble s)
    | .lo => nextOp s

/-- `cnt <- cnt - 1` (41_byte_transfer.md R132). -/
def countDown (s : State) : State := { s with cnt := s.cnt - 1 }

/-- The `NIB` arm (41_byte_transfer.md R137). -/
def nibArm (s : State) : Out := if 1 < s.cnt then .next (countDown s) else phaseEnd s

/-- The `WAIT` arm (41_byte_transfer.md R137, R134). -/
def waitArm (s : State) : Out := if 1 < s.cnt then .next (countDown s) else nextOp s

/-- A reserved word is accepted: `err <- 1` and nothing else (45_control.md R204). -/
def reservedWord (s : State) : Out := .next (setErr s)

/-! ### Line outputs -/

/-- The level the latch of a line holds (10_state.md R22, R24). -/
def latchLevel (s : State) : LcdLine → Bool
  | .rs => s.rs
  | .e => s.e
  | .d4 => s.d.getLsbD 0
  | .d5 => s.d.getLsbD 1
  | .d6 => s.d.getLsbD 2
  | .d7 => s.d.getLsbD 3

/-- What the engine drives on a line: nothing (`Z`) while `oe = 0`, the latch's level while `oe = 1`
(10_state.md R23). -/
def driven (s : State) (l : LcdLine) : Option Bool := if s.oe then some (latchLevel s l) else none

/-- The level the controller sees on a line: a free value while it is undriven (93_implementation_defined.md U4). -/
def controllerLevel (s : State) (l : LcdLine) : Bool := (driven s l).getD (Config.undrivenLevel s.edgeNo l)

/-- The LCD line wired to a host GPIO, if any (10_state.md R25). -/
def lineAtPin (c : Config) (id : Nat) : Option LcdLine :=
  [LcdLine.rs, .e, .d4, .d5, .d6, .d7].find? (fun l => decide (c.pin l = id))

end Sys2Proof.Machine
end

