-- ==== Sys2Proof/Machine/Clear.lean ====
section
/-! DEFINITION. CLEAR (44_clear.md R190). -/

namespace Sys2Proof.Machine

/-- `CLEAR`: `prog <- P_CLEAR`, which sends 0x06 then 0x01 in Command mode and then waits `N_CLEAR` cycles
(44_clear.md R190, R191). -/
def execClear (s : State) : Out := acceptWord (encode .clear) .clear s

end Sys2Proof.Machine
end

