-- ==== Sys2Proof/Machine/Control.lean ====
section
/-! DEFINITION. NOP and DELAY (45_control.md R200, R202). -/

namespace Sys2Proof.Machine

/-- `NOP`: `prog <- P_NOP`, whose only micro-operation is `END` (45_control.md R200). -/
def execNop (s : State) : Out := acceptWord (encode .nop) .nop s

/-- `DELAY COUNT`: `prog <- P_DELAY`, which waits `COUNT * N_UNIT` cycles with no line change (45_control.md R202). -/
def execDelay (count : BitVec 12) (s : State) : Out := acceptWord (encode (.delay count)) .delay s

end Sys2Proof.Machine
end

