-- ==== Sys2Proof/Machine/LineSelect.lean ====
section
/-! DEFINITION. LINE (42_line_addressing.md R150). -/

namespace Sys2Proof.Machine

/-- `LINE n`: `prog <- P_LINE`, which sends `LINE_BASE[n]` in Command mode; `n` is not compared with `LINES`
(42_line_addressing.md R150, R152). A line number outside 1..4 is no command (30_encoding.md R73;
notes/assumptions/11.md). -/
def execLine (n : Nat) (s : State) : Out :=
  if 1 ≤ n ∧ n ≤ 4 then acceptWord (encode (.line n)) .line s else .refused .lineNotEncodable

end Sys2Proof.Machine
end

