-- ==== Sys2Proof/Machine/Transfer.lean ====
section
/-! DEFINITION. XFER.C and XFER.D (41_byte_transfer.md R124, R125): the accepting edge, at which the first high nibble
is put on the lines. The six phases of R130 follow, one edge at a time, by `nibArm` (notes/assumptions/14.md). -/

namespace Sys2Proof.Machine

/-- `XFER.C DATA`: `prog <- P_XFER` with `op_m = 0` (41_byte_transfer.md R124). -/
def execXferC (data : Byte) (s : State) : Out := acceptWord (encode (.xferC data)) .xfer s

/-- `XFER.D DATA`: `prog <- P_XFER` with `op_m = 1` (41_byte_transfer.md R125). -/
def execXferD (data : Byte) (s : State) : Out := acceptWord (encode (.xferD data)) .xfer s

end Sys2Proof.Machine
end

