-- ==== Sys2Proof/Machine/Dispatch.lean ====
section
/-! DEFINITION. Which meaning each command has. -/

namespace Sys2Proof.Machine

def exec (i : Instr) (s : State) : Host.Outcome State Fault Refusal :=
  match i with
  | .nop => Sys2Proof.Machine.execNop s
  | .xferC data => Sys2Proof.Machine.execXferC data s
  | .xferD data => Sys2Proof.Machine.execXferD data s
  | .line n => Sys2Proof.Machine.execLine n s
  | .clear => Sys2Proof.Machine.execClear s
  | .delay count => Sys2Proof.Machine.execDelay count s

end Sys2Proof.Machine
end

