-- ==== Sys2Proof/Machine/HostPort.lean ====
section
/-! DEFINITION. The host's side of the command port: its script, the handshake (60_exceptions.md R240), and how a word
is placed so that the next step accepts it. -/

namespace Sys2Proof.Machine

/-- The inputs of an edge at which the host does nothing. -/
def Ports.quiet : Ports := { rst := false, cmdValid := false, cmdWord := 0#16 }

/-- The inputs of an edge with reset asserted. -/
def Ports.reset : Ports := { rst := true, cmdValid := false, cmdWord := 0#16 }

/-- The inputs of an edge at which a word is presented. -/
def Ports.offer (w : Word) : Ports := { rst := false, cmdValid := true, cmdWord := w }

/-- The levels of the input ports at the coming edge, from the first move of the script (60_exceptions.md R240); a
script that has ended leaves the port quiet (notes/assumptions/2.md). -/
def hostPorts (s : State) : Ports :=
  match s.host with
  | [] => .quiet
  | .present w :: _ => .offer w
  | .levels p :: _ => p
  | .foreignDrive _ _ :: _ => .quiet

/-- The first move of the script drives an LCD line (70_reset_and_hazards.md R265). -/
def drivesLine (s : State) : Bool :=
  match s.host with
  | .foreignDrive _ _ :: _ => true
  | .present _ :: _ => false
  | .levels _ :: _ => false
  | [] => false

/-- The script after an edge: a presented word stays until it was accepted (60_exceptions.md R240), any other move was
for this edge only. -/
def hostAfter (accepted : Bool) : List HostMove → List HostMove
  | [] => []
  | .present w :: ms => if accepted then ms else .present w :: ms
  | .levels _ :: ms => ms
  | .foreignDrive _ _ :: ms => ms

/-- What a step adds around the engine's edge: the host goes on and the edge is counted. -/
def afterEdge (accepted : Bool) (s : State) : State :=
  { s with host := hostAfter accepted s.host, edgeNo := s.edgeNo + 1 }

/-- The registers as the bring-up program leaves them: IDLE, the low nibble of 0x01 on the data lines, `init_done`
(40_init_sequencer.md R104, R106; 95_test_vectors.md section 2.4). The stale counter holds 1, the last cycle of the
last phase. -/
def afterBringUp (s : State) : State :=
  { s with
    oe := true, rs := false, e := false, d := 0x1#4, st := .idle, prog := .init, pidx := 8#4, curByte := 0x01#8,
    half := .lo, ph := .post, cnt := 1, initDone := true, trace := s.trace ++ initEvents s.cfg }

/-- A state in which the engine is ready: the state itself if it is IDLE, else what a reset and the bring-up program
leave (notes/assumptions/10.md). -/
def makeReady (s : State) : State := if s.st = .idle then s else afterBringUp (resetEdge s)

/-- Present a word to a ready engine before anything else the host does. -/
def placeWord (w : Word) (s : State) : State :=
  { makeReady s with host := .present w :: s.host }

end Sys2Proof.Machine
end

