-- ==== Sys2Proof/Machine/Step.lean ====
section
/-! DEFINITION. The edge function (41_byte_transfer.md R137), the step, and runs of edges. -/

namespace Sys2Proof.Machine

/-- The edge function of 41_byte_transfer.md R137: what one rising clock edge does to the engine, for every level of
the input ports. Reset has priority over everything (10_state.md R38, 60_exceptions.md R225). -/
def edge (p : Ports) (s : State) : Host.Outcome State Fault Refusal :=
  if p.rst then .next (resetEdge s)
  else
    match s.st with
    | .boot => bootArm s
    | .idle =>
      if p.cmdValid then
        match decode p.cmdWord with
        | .reserved _ => reservedWord s
        | .legal i => exec i s
      else .next s
    | .nib => nibArm s
    | .wait => waitArm s

/-- One step: one clock edge with the inputs the host's script gives (notes/assumptions/1.md). A configuration that
breaks 70_reset_and_hazards.md R254 is refused (93_implementation_defined.md U6), and a foreign driver of an LCD line
is a fault (U10). -/
def step (s : State) : Host.Outcome State Fault Refusal :=
  if s.cfg.valid then
    if drivesLine s then .fault .foreignDriver
    else
      match edge (hostPorts s) s with
      | .next t => .next (afterEdge (accepts (hostPorts s) s) t)
      | .fault r => .fault r
      | .refused r => .refused r
  else .refused .invalidConfig

/-- Consecutive edges with the given inputs, first first. -/
def runEdges : List Ports → State → Host.Outcome State Fault Refusal
  | [], s => .next s
  | p :: ps, s => andThen (edge p s) (runEdges ps)

/-- The state with a table word placed where the next step accepts it: on the command port of a ready engine
(notes/assumptions/10.md). -/
def State.withFetchWord (s : State) (nbits w : Nat) : State :=
  placeWord (BitVec.ofNat 16 (w % 2 ^ nbits)) s

end Sys2Proof.Machine
end

