-- ==== Sys2Proof/Machine/Compose.lean ====
section
/-! DEFINITION. The host's text composition: pseudo-instructions that expand into engine commands, and the busy-window
duty (43_text_composition.md R160 to R179; 70_reset_and_hazards.md R262). None of it is engine hardware (00_scope.md
R5): a refusal here changes no engine state (60_exceptions.md R226). -/

namespace Sys2Proof.Machine

/-- The source's JustifyStyle (00_scope.md R13). -/
inductive Style where
  | left | center | right | typed
  deriving DecidableEq, Repr

/-- A host pseudo-instruction (43_text_composition.md R170 to R176). `v` is the Typed speed in seconds; when the caller
gives none, `TYPED_SPEED_DEFAULT` stands for it (R168). -/
inductive Pseudo where
  /-- `WRITE n, style, s` (R170). -/
  | write (n : Nat) (style : Style) (s : List Char) (v : Option Ratio)
  /-- `TEXT.L`, `TEXT.C`, `TEXT.R`, `TEXT.T` (R172 to R175). -/
  | text (style : Style) (s : List Char) (v : Option Ratio)
  /-- `MSG s, style` (R176). -/
  | msg (style : Style) (s : List Char) (v : Option Ratio)
  deriving DecidableEq, Repr

/-- Why the host composer refuses; it then emits no command at all (43_text_composition.md R178). -/
inductive ComposeRefusal where
  /-- "text exceeds display width" (R164). -/
  | textExceedsDisplayWidth
  /-- A character with code point above 0xFF (R166). -/
  | codeAboveFF
  /-- A line number outside 1..4 (R171). -/
  | lineNumber
  deriving DecidableEq, Repr

/-- What a composition gives: the commands to send, or a refusal. -/
inductive Composed where
  | emits (is : List Instr)
  | refuses (why : ComposeRefusal)
  deriving DecidableEq, Repr

/-- `sp(k)`, k space characters (43_text_composition.md R160). -/
def spaces (k : Nat) : List Char := List.replicate k ' '

/-- `padL(s)`, refused for a text longer than `WIDTH` (43_text_composition.md R161, R164). -/
def padL (c : Config) (s : List Char) : Option (List Char) :=
  if s.length ≤ c.width then some (s ++ spaces (c.width - s.length)) else none

/-- `padC(s)`: floor of half the padding on the left, ceil on the right (43_text_composition.md R162, R164). -/
def padC (c : Config) (s : List Char) : Option (List Char) :=
  if s.length ≤ c.width then
    some (spaces ((c.width - s.length) / 2) ++ s ++ spaces ((c.width - s.length + 1) / 2))
  else none

/-- `padR(s)` (43_text_composition.md R163, R164). -/
def padR (c : Config) (s : List Char) : Option (List Char) :=
  if s.length ≤ c.width then some (spaces (c.width - s.length) ++ s) else none

/-- The padding of a style: Typed pads as Left (43_text_composition.md R175). -/
def pad (c : Config) : Style → List Char → Option (List Char)
  | .left => padL c
  | .center => padC c
  | .right => padR c
  | .typed => padL c

/-- A character the composer can send: code point at most 0xFF (43_text_composition.md R166). -/
def codeOk (ch : Char) : Bool := decide (ch.toNat ≤ 0xFF)

/-- `XFER.D code(c)` (43_text_composition.md R166). -/
def sendChar (ch : Char) : Instr := .xferD (BitVec.ofNat 8 ch.toNat)

/-- A space is U+0020 only (43_text_composition.md R167). -/
def isSpace (ch : Char) : Bool := decide (ch = ' ')

/-- The units of a Typed speed, `u = ceil(v / T_UNIT)` (43_text_composition.md R168). -/
def typedUnits (c : Config) (v : Option Ratio) : Nat := (v.getD c.typedSpeedDefault).ceilDiv c.tUnit

/-- `u` units as DELAY commands: `floor(u / 4095)` of 4095, then the remainder if it is not 0
(43_text_composition.md R168). -/
def delayCommands (u : Nat) : List Instr :=
  List.replicate (u / 4095) (.delay 4095#12)
    ++ (if 0 < u % 4095 then [.delay (BitVec.ofNat 12 (u % 4095))] else [])

/-- The commands of one character: Typed adds the delays after a non-space (43_text_composition.md R172, R175). -/
def charCommands (c : Config) (style : Style) (v : Option Ratio) (ch : Char) : List Instr :=
  sendChar ch :: (if style = .typed && !isSpace ch then delayCommands (typedUnits c v) else [])

/-- TEXT in a style: pad, check every character, then send them in order (43_text_composition.md R172 to R175,
R178). -/
def expandText (c : Config) (style : Style) (v : Option Ratio) (s : List Char) : Composed :=
  match pad c style s with
  | none => .refuses .textExceedsDisplayWidth
  | some t => if t.all codeOk then .emits (t.flatMap (charCommands c style v)) else .refuses .codeAboveFF

/-- Commands put before a composition that emits; a refusal stays whole (43_text_composition.md R178). -/
def Composed.after (is : List Instr) : Composed → Composed
  | .emits js => .emits (is ++ js)
  | .refuses why => .refuses why

/-- The parts of a text between line feeds, empty parts kept (43_text_composition.md R177). -/
def splitLines : List Char → List (List Char)
  | [] => [[]]
  | ch :: cs =>
    if ch = '\n' then [] :: splitLines cs
    else
      match splitLines cs with
      | [] => [[ch]]
      | p :: ps => (ch :: p) :: ps

/-- The addressing command `A_i` of part i of a message, if it has one (43_text_composition.md R176). -/
def partAddress (c : Config) : Nat → List Instr
  | 0 => [.line 1]
  | 1 => [.line 2]
  | 2 => if c.extendLines then [.line 3] else []
  | 3 => if c.extendLines then [.line 4] else []
  | _ => []

/-- The parts of a message from part i on, all or nothing (43_text_composition.md R176, R178). -/
def expandParts (c : Config) (style : Style) (v : Option Ratio) : Nat → List (List Char) → Composed
  | _, [] => .emits []
  | i, p :: ps =>
    match expandText c style v p with
    | .refuses why => .refuses why
    | .emits js => (expandParts c style v (i + 1) ps).after (partAddress c i ++ js)

/-- The expansion of a pseudo-instruction (43_text_composition.md R170 to R178). -/
def expand (c : Config) : Pseudo → Composed
  | .write n style s v =>
    if 1 ≤ n ∧ n ≤ 4 then (expandText c style v s).after [.line n] else .refuses .lineNumber
  | .text style s v => expandText c style v s
  | .msg style s v => expandParts c style v 0 (splitLines s)

/-- The units of `T_UNIT` a command waits beside its transfers (45_control.md R202). -/
def unitsOf : Instr → Nat
  | .delay k => k.toNat
  | .nop => 0
  | .xferC _ => 0
  | .xferD _ => 0
  | .line _ => 0
  | .clear => 0

/-- The command is a DELAY. -/
def isDelay : Instr → Bool
  | .delay _ => true
  | .nop => false
  | .xferC _ => false
  | .xferD _ => false
  | .line _ => false
  | .clear => false

/-- The units of DELAY a host owes after `XFER.C 0x01`, `ceil(T_CLEAR / T_UNIT)` (70_reset_and_hazards.md R262). -/
def clearUnits (c : Config) : Nat := c.tClear.ceilDiv c.tUnit

/-- The units still owed after a command, or none if it is a transfer sent while some are owed
(70_reset_and_hazards.md R262). -/
def owedAfter (c : Config) (owed : Nat) : Instr → Option Nat
  | .nop => some owed
  | .delay k => some (owed - k.toNat)
  | .xferC b => if owed = 0 then some (if b = 0x01#8 then clearUnits c else 0) else none
  | .xferD _ => if owed = 0 then some 0 else none
  | .line _ => if owed = 0 then some 0 else none
  | .clear => if owed = 0 then some 0 else none

/-- A command stream keeps the duty of 70_reset_and_hazards.md R262: after `XFER.C 0x01` no transfer comes before the
owed units of DELAY. The engine does not check it. -/
def keepsBusyWindow (c : Config) : Nat → List Instr → Bool
  | _, [] => true
  | owed, i :: is =>
    match owedAfter c owed i with
    | some owed' => keepsBusyWindow c owed' is
    | none => false

end Sys2Proof.Machine
end

