-- ==== Sys2Proof/Machine/Assembler.lean ====
section
/-! DEFINITION. The assembler syntax of a command stream (30_encoding.md R82), and a source stream of commands, raw
words and pseudo-instructions. It is host software: the engine sees only the words. -/

namespace Sys2Proof.Machine

/-- Why a source line is an assembly error; nothing is emitted for it (30_encoding.md R82). -/
inductive AsmError where
  /-- The first word of the line is none of R82's table. -/
  | mnemonic
  /-- The operand is missing or no number. -/
  | operand
  /-- The operand is out of its range. -/
  | range
  /-- Something other than a comment stands after the command. -/
  | trailing
  deriving DecidableEq, Repr

/-- What a source line gives: the words to send, or an error. -/
inductive Assembled where
  | emits (ws : List Word)
  | error (why : AsmError)
  deriving DecidableEq, Repr

/-- Blank and tab separate the parts of a line (notes/assumptions/17.md). -/
def isBlank (ch : Char) : Bool := decide (ch = ' ' ∨ ch = '\t')

/-- A line without its leading blanks. -/
def dropBlanks (cs : List Char) : List Char := cs.dropWhile isBlank

/-- A character of a mnemonic or a number: neither blank nor the start of a comment. -/
def isTokenChar (ch : Char) : Bool := !isBlank ch && decide (ch ≠ ';')

/-- Nothing but blanks and a comment is left (30_encoding.md R82: `;` starts a comment). -/
def atEnd (cs : List Char) : Bool :=
  match dropBlanks cs with
  | [] => true
  | ch :: _ => decide (ch = ';')

/-- The value of a digit, decimal or hexadecimal in either case (notes/assumptions/17.md). -/
def digitValue (ch : Char) : Option Nat :=
  if '0' ≤ ch ∧ ch ≤ '9' then some (ch.toNat - '0'.toNat)
  else if 'a' ≤ ch ∧ ch ≤ 'f' then some (ch.toNat - 'a'.toNat + 10)
  else if 'A' ≤ ch ∧ ch ≤ 'F' then some (ch.toNat - 'A'.toNat + 10)
  else none

/-- The value of a digit string in a base, going on from `acc`. -/
def digitsFrom (base : Nat) : Nat → List Char → Option Nat
  | acc, [] => some acc
  | acc, ch :: cs =>
    match digitValue ch with
    | some v => if v < base then digitsFrom base (acc * base + v) cs else none
    | none => none

/-- The value of a non-empty digit string. -/
def digits (base : Nat) (cs : List Char) : Option Nat := if cs.isEmpty then none else digitsFrom base 0 cs

/-- A number: decimal, `0x` hexadecimal or `0b` binary (30_encoding.md R82). -/
def number : List Char → Option Nat
  | '0' :: 'x' :: cs => digits 16 cs
  | '0' :: 'b' :: cs => digits 2 cs
  | cs => digits 10 cs

/-- An operand and what follows it: a number, or a character literal, which is the byte value of the character
(30_encoding.md R82), where the command takes one. -/
def operand (charAllowed : Bool) (cs : List Char) : Option (Nat × List Char) :=
  match dropBlanks cs with
  | '\'' :: ch :: '\'' :: rest => if charAllowed then some (ch.toNat, rest) else none
  | t => (number (t.takeWhile isTokenChar)).map fun v => (v, t.dropWhile isTokenChar)

/-- A command with no operand. -/
def plain (w : Word) (rest : List Char) : Assembled := if atEnd rest then .emits [w] else .error .trailing

/-- A command with one operand in a range, as the instruction of its value. -/
def withOperand (charAllowed : Bool) (lo hi : Nat) (word : Nat → Word) (rest : List Char) : Assembled :=
  match operand charAllowed rest with
  | none => .error .operand
  | some (v, rest') =>
    if lo ≤ v ∧ v ≤ hi then
      if atEnd rest' then .emits [word v] else .error .trailing
    else .error .range

/-- The table of 30_encoding.md R82, by mnemonic. -/
def assembleCommand (m rest : List Char) : Assembled :=
  if m = "NOP".toList then plain (encode .nop) rest
  else if m = "XFER.C".toList then withOperand false 0 255 (fun v => encode (.xferC (BitVec.ofNat 8 v))) rest
  else if m = "XFER.D".toList then withOperand true 0 255 (fun v => encode (.xferD (BitVec.ofNat 8 v))) rest
  else if m = "LINE".toList then withOperand false 1 4 (fun v => encode (.line v)) rest
  else if m = "CLEAR".toList then plain (encode .clear) rest
  else if m = "DELAY".toList then withOperand false 0 4095 (fun v => encode (.delay (BitVec.ofNat 12 v))) rest
  else if m = ".word".toList then withOperand false 0 65535 (fun v => BitVec.ofNat 16 v) rest
  else .error .mnemonic

/-- One source line: at most one command, then perhaps a comment (30_encoding.md R82). -/
def assembleLine (cs : List Char) : Assembled :=
  if atEnd cs then .emits []
  else assembleCommand ((dropBlanks cs).takeWhile isTokenChar) ((dropBlanks cs).dropWhile isTokenChar)

/-- A source text, line by line. -/
def assemble (cs : List Char) : List Assembled := (splitLines cs).map assembleLine

/-- One item of a host's source stream (30_encoding.md R82). -/
inductive SourceItem where
  | command (i : Instr)
  | word (w : Word)
  | pseudo (p : Pseudo)
  deriving DecidableEq, Repr

/-- The words an item sends: none for an operand out of its range or a refused pseudo-instruction
(30_encoding.md R82, 43_text_composition.md R178). -/
def itemWords (c : Config) : SourceItem → Option (List Word)
  | .command i => if i.wf then some [encode i] else none
  | .word w => some [w]
  | .pseudo p =>
    match expand c p with
    | .emits is => some (is.map encode)
    | .refuses _ => none

/-- A conforming host's script for a list of words: each presented and held until accepted (60_exceptions.md R240). -/
def script (ws : List Word) : List HostMove := ws.map .present

end Sys2Proof.Machine
end

