-- ==== Sys2Proof/Machine/RunEnd.lean ====
section
/-! DEFINITION. Where a run of a command stream ends (60_exceptions.md R241). -/

namespace Sys2Proof.Machine

/-- How many steps a run from `s` takes until it is over, at the first edge after which it is (60_exceptions.md R241),
looking at `fuel` steps at most; none where it is not over by then or stops. -/
def runLength : Nat → State → Option Nat
  | 0, s => if runOver s then some 0 else none
  | fuel + 1, s =>
    if runOver s then some 0
    else
      match step s with
      | .next t => (runLength fuel t).map (· + 1)
      | .fault _ => none
      | .refused _ => none

end Sys2Proof.Machine
end

