-- ==== Sys2Proof/Safety.lean ====
section
/-! DEFINITION. What holds of every state a run reaches, and how long a command still takes: the terms the claims use. -/

namespace Sys2Proof.Machine.Safety

open Sys2Proof.Machine

/-- The micro-operation in progress, `MP[prog][pidx]` (10_state.md R27). -/
def currentOp (s : State) : Option MicroOp := (microProg s)[s.pidx.toNat]?

/-- The micro-program of a command (30_encoding.md R77). -/
def progOf : Instr → Prog
  | .nop => .nop
  | .xferC _ => .xfer
  | .xferD _ => .xfer
  | .line _ => .line
  | .clear => .clear
  | .delay _ => .delay

/-- The length of a phase in cycles (41_byte_transfer.md R130). -/
def phaseLength (c : Config) : Phase → Nat
  | .pre => c.nSettle
  | .pulse => c.nPulse
  | .post => c.nSettle

/-- The invariant of the engine. -/
structure EngineInv (s : State) : Prop where
  /-- The configuration has a meaning (70_reset_and_hazards.md R254). -/
  valid : s.cfg.valid = true
  /-- `BOOT` is only ever the reset state (10_state.md R26, R38). -/
  boot : s.st = .boot → s = resetEdge s
  /-- `st = IDLE` implies `init_done = 1` (10_state.md R33), and the lines are driven. -/
  idle : s.st = .idle → s.initDone = true ∧ s.oe = true
  /-- `e = 1` exactly when `st = NIB` and `ph = PULSE` (41_byte_transfer.md R136). -/
  enable : s.e = decide (s.st = .nib ∧ s.ph = .pulse)
  /-- In `NIB` the current micro-operation transfers `cur_byte` in the mode RS holds, the half's nibble is on the data
  lines, and the phase has between 1 and all of its cycles left (41_byte_transfer.md R130, R132). -/
  nib : s.st = .nib → s.oe = true ∧ 1 ≤ s.cnt ∧ s.cnt ≤ phaseLength s.cfg s.ph
    ∧ currentOp s = some (.x s.curByte s.rs) ∧ s.d = halfNibble s.half s.curByte
  /-- In `WAIT` the current micro-operation is a wait with between 1 and all of its cycles left
  (41_byte_transfer.md R132). -/
  wait : s.st = .wait → s.oe = true ∧ 1 ≤ s.cnt ∧ ∃ n t, currentOp s = some (.w n t) ∧ s.cnt ≤ n
  /-- While a micro-program runs, `init_done` says whether it is a command's (40_init_sequencer.md R104, R105). -/
  bringUp : s.st = .nib ∨ s.st = .wait → s.initDone = decide (s.prog ≠ .init)
  /-- `pidx` never exceeds 8 (10_state.md R35). -/
  pidx : s.pidx.toNat ≤ 8
  /-- The timer holds no more than its largest load, so `CNT_W` bits hold it (45_control.md R206). -/
  cnt : s.cnt ≤ s.cfg.maxLoad
  /-- The lines are what the trace so far makes of the reset lines (41_byte_transfer.md R140 (a), (d)). -/
  lines : s.lines = Lines.reset.applyAll s.trace

/-- Nibble pairing (20_memory.md R52): the Enable pulses so far are even in number but for the high nibble's own, between
its rising edge and the low nibble's. -/
def Paired (s : State) : Prop :=
  pulses s.trace % 2 =
    if s.st = .nib then
      match s.half, s.ph with
      | .hi, .pre => 0
      | .hi, .pulse => 1
      | .hi, .post => 1
      | .lo, .pre => 1
      | .lo, .pulse => 0
      | .lo, .post => 0
    else 0

/-- The cycles a micro-operation takes (30_encoding.md R81, 41_byte_transfer.md R138). -/
def opCycles (c : Config) : MicroOp → Nat
  | .cfg => 0
  | .x _ _ => c.transferCycles
  | .w n _ => n
  | .fin => 0

/-- The cycles a list of micro-operations takes. -/
def opsCycles (c : Config) : List MicroOp → Nat
  | [] => 0
  | u :: us => opCycles c u + opsCycles c us

/-- The cycles of the phases of a byte that follow the current one (41_byte_transfer.md R130). -/
def phasesAfter (c : Config) : Half → Phase → Nat
  | .hi, .pre => 3 * c.nSettle + 2 * c.nPulse
  | .hi, .pulse => 3 * c.nSettle + c.nPulse
  | .hi, .post => 2 * c.nSettle + c.nPulse
  | .lo, .pre => c.nSettle + c.nPulse
  | .lo, .pulse => c.nSettle
  | .lo, .post => 0

/-- How many edges without reset the engine still needs to reach `IDLE` (70_reset_and_hazards.md R270). -/
def remaining (s : State) : Nat :=
  match s.st with
  | .boot => 1 + opsCycles s.cfg (microProg { s with prog := .init })
  | .idle => 0
  | .nib => s.cnt + phasesAfter s.cfg s.half s.ph + opsCycles s.cfg ((microProg s).drop (s.pidx.toNat + 1))
  | .wait => s.cnt + opsCycles s.cfg ((microProg s).drop (s.pidx.toNat + 1))

/-- The duration of a command, from its accepting edge to the edge that enters `END` (70_reset_and_hazards.md R270). -/
def instrCycles (c : Config) : Instr → Nat
  | .nop => 0
  | .xferC _ => c.transferCycles
  | .xferD _ => c.transferCycles
  | .line _ => c.transferCycles
  | .clear => 2 * c.transferCycles + c.nClear
  | .delay k => k.toNat * c.nUnit

/-- The duration of the bring-up program from edge 1 (70_reset_and_hazards.md R270). -/
def initCycles (c : Config) : Nat := c.nPowerup + 6 * c.transferCycles

/-- No edge of the list has reset asserted. -/
def NoReset (ps : List Ports) : Prop := ∀ p ∈ ps, p.rst = false

end Sys2Proof.Machine.Safety
end

