-- ==== Sys2Proof/Certificates/Slice0/Obligations.lean ====
section
/-! DEFINITION. The statements for the provers. Each docstring names the rule of spec/ it formalises. -/

open Sys2Proof Sys2Proof.Machine Sys2Proof.Machine.Safety

/-! ### Encoding -/

/-- 30_encoding.md R71, R73, R76: the decoder reads back every well-formed command, with every operand value. -/
def Obligations.DecodeEncodeAgree : Prop :=
  ∀ i : Instr, i.wf = true → decode (encode i) = .legal i

/-- 30_encoding.md R76: a legal word is the encoding of exactly one well-formed command, so no bit of it is dropped. -/
def Obligations.EncodeDecodeAgree : Prop :=
  ∀ (w : Word) (i : Instr), decode w = .legal i → i.wf = true ∧ encode i = w

/-- 30_encoding.md R71 and the operands of R73: each row's mask and match, and what matches no row is reserved. -/
def Obligations.DecodeFollowsOpcodeTable : Prop :=
  ∀ w : Word,
    (decode w = .legal .nop ↔ w &&& 0xFFFF#16 = 0x0000#16)
    ∧ (∀ b, decode w = .legal (.xferC b) ↔ w &&& 0xFF00#16 = 0x1000#16 ∧ b = w.extractLsb' 0 8)
    ∧ (∀ b, decode w = .legal (.xferD b) ↔ w &&& 0xFF00#16 = 0x1100#16 ∧ b = w.extractLsb' 0 8)
    ∧ (∀ n, decode w = .legal (.line n) ↔ w &&& 0xFCFF#16 = 0x2000#16 ∧ n = (w.extractLsb' 8 2).toNat + 1)
    ∧ (decode w = .legal .clear ↔ w &&& 0xFFFF#16 = 0x3000#16)
    ∧ (∀ c, decode w = .legal (.delay c) ↔ w &&& 0xF000#16 = 0x4000#16 ∧ c = w.extractLsb' 0 12)
    ∧ (w &&& 0xFFFF#16 ≠ 0x0000#16 → w &&& 0xFF00#16 ≠ 0x1000#16 → w &&& 0xFF00#16 ≠ 0x1100#16 →
        w &&& 0xFCFF#16 ≠ 0x2000#16 → w &&& 0xFFFF#16 ≠ 0x3000#16 → w &&& 0xF000#16 ≠ 0x4000#16 →
        ∃ why, decode w = .reserved why)

/-- 30_encoding.md R75: the reserved words are exactly the five groups, and an IDLE engine that accepts one changes
nothing but `err`, which becomes 1. -/
def Obligations.ReservedWordsAreThese : Prop :=
  ∀ w : Word,
    ((∃ why, decode w = .reserved why) ↔
      5 ≤ (w.extractLsb' 12 4).toNat
      ∨ (w.extractLsb' 12 4 = 0x0#4 ∧ w ≠ 0x0000#16)
      ∨ (w.extractLsb' 12 4 = 0x1#4 ∧ w.extractLsb' 9 3 ≠ 0)
      ∨ (w.extractLsb' 12 4 = 0x2#4 ∧ (w.extractLsb' 10 2 ≠ 0 ∨ w.extractLsb' 0 8 ≠ 0))
      ∨ (w.extractLsb' 12 4 = 0x3#4 ∧ w ≠ 0x3000#16))
    ∧ ∀ s : State, s.st = .idle → (∃ why, decode w = .reserved why) →
        edge { rst := false, cmdValid := true, cmdWord := w } s = .next { s with err := true }

/-- 95_test_vectors.md section 2.1: words written out from R71's patterns decode to their commands. -/
def Obligations.SampleWordsDecode : Prop :=
  decode 0b0000000000000000#16 = .legal .nop
  ∧ decode 0b0001000000101000#16 = .legal (.xferC 0x28)
  ∧ decode 0b0001000101000001#16 = .legal (.xferD 0x41)
  ∧ decode 0b0010000000000000#16 = .legal (.line 1)
  ∧ decode 0b0010001100000000#16 = .legal (.line 4)
  ∧ decode 0b0011000000000000#16 = .legal .clear
  ∧ decode 0b0100000000000101#16 = .legal (.delay 5)
  ∧ decode 0b0100111111111111#16 = .legal (.delay 4095)

/-! ### The step and the accepting edge -/

/-- 41_byte_transfer.md R137 with 10_state.md R33: a step of an IDLE engine that is offered a legal word runs that
command, and beside it the host's script moves on and the edge is counted. -/
def Obligations.StepRunsDecodedInstruction : Prop :=
  ∀ (s : State) (i : Instr), s.cfg.valid = true → s.st = .idle → (hostPorts s).rst = false →
    (hostPorts s).cmdValid = true → decode (hostPorts s).cmdWord = .legal i →
    step s = match exec i s with
      | .next t => .next { t with host := hostAfter true t.host, edgeNo := t.edgeNo + 1 }
      | .fault r => .fault r
      | .refused r => .refused r

/-- 41_byte_transfer.md R137: in every other respect a step is one edge with the inputs the host gives. -/
def Obligations.StepIsOneEdge : Prop :=
  ∀ s : State, s.cfg.valid = true → drivesLine s = false →
    step s = match edge (hostPorts s) s with
      | .next t => .next { t with host := hostAfter (accepts (hostPorts s) s) t.host, edgeNo := t.edgeNo + 1 }
      | .fault r => .fault r
      | .refused r => .refused r

/-- The model's convention of notes/assumptions/10.md: a placed word is accepted at the next step, and the host then
goes on with its own script. -/
def Obligations.PlacedWordRunsNext : Prop :=
  ∀ (s : State) (w : Word) (i : Instr), s.cfg.valid = true → decode w = .legal i →
    step (s.withFetchWord 16 w.toNat) = match exec i (s.withFetchWord 16 w.toNat) with
      | .next t => .next { t with host := s.host, edgeNo := t.edgeNo + 1 }
      | .fault r => .fault r
      | .refused r => .refused r

/-- 30_encoding.md R77: the accepting edge of a legal word loads all four operand latches from the word, sets `prog`
from the command and `pidx` to 0, and enters the program's first micro-operation. -/
def Obligations.AcceptanceLatchesOperands : Prop :=
  ∀ (p : Ports) (s : State) (i : Instr), p.rst = false → p.cmdValid = true → s.st = .idle →
    decode p.cmdWord = .legal i →
    let q : State := { s with
      opData := p.cmdWord.extractLsb' 0 8
      opM := p.cmdWord.getLsbD 8
      opLine := p.cmdWord.extractLsb' 8 2
      opCount := p.cmdWord.extractLsb' 0 12
      prog := match i with
        | .nop => .nop
        | .xferC _ => .xfer
        | .xferD _ => .xfer
        | .line _ => .line
        | .clear => .clear
        | .delay _ => .delay
      pidx := 0#4 }
    edge p s = enterFrom (microProg q) q

/-! ### Commands: what each does, from its accepting edge to its END -/

/-- 45_control.md R200: NOP is 0x0000, has no event, and at its accepting edge sets `prog`, `pidx` and the operand
latches and is IDLE; nothing else changes. -/
def Obligations.NopCompletes : Prop :=
  encode .nop = 0x0000#16 ∧ (∀ c, instrEvents c .nop = [])
  ∧ ∀ s : State, exec .nop s = .next { s with
      prog := .nop, pidx := 0#4, opData := 0#8, opM := false, opLine := 0#2, opCount := 0#12, st := .idle }

/-- 41_byte_transfer.md R124: XFER.C puts the high nibble on the lines with RS = 0 at its accepting edge, and
`4 * N_SETTLE + 2 * N_PULSE` edges later is IDLE with the whole transfer in the trace. -/
def Obligations.XferCCompletes : Prop :=
  ∀ (b : Byte) (s : State), s.cfg.valid = true →
    encode (.xferC b) = 0x1000#16 + b.zeroExtend 16
    ∧ instrEvents s.cfg (.xferC b) = xfer s.cfg b false
    ∧ (∃ evs, exec (.xferC b) s = .next { s with
        opData := b, opM := false, opLine := 0#2, opCount := 0x0#4 ++ b, prog := .xfer, pidx := 0#4,
        curByte := b, rs := false, d := b.extractLsb' 4 4, half := .hi, ph := .pre, cnt := s.cfg.nSettle, st := .nib,
        trace := s.trace ++ evs })
    ∧ ∀ ps, NoReset ps → ps.length = 4 * s.cfg.nSettle + 2 * s.cfg.nPulse →
        andThen (exec (.xferC b) s) (runEdges ps) = .next { s with
          opData := b, opM := false, opLine := 0#2, opCount := 0x0#4 ++ b, prog := .xfer, pidx := 1#4,
          curByte := b, rs := false, e := false, d := b.extractLsb' 0 4, half := .lo, ph := .post, cnt := 1,
          st := .idle, trace := s.trace ++ xfer s.cfg b false }

/-- 41_byte_transfer.md R125: XFER.D is the same with RS = 1. -/
def Obligations.XferDCompletes : Prop :=
  ∀ (b : Byte) (s : State), s.cfg.valid = true →
    encode (.xferD b) = 0x1100#16 + b.zeroExtend 16
    ∧ instrEvents s.cfg (.xferD b) = xfer s.cfg b true
    ∧ (∃ evs, exec (.xferD b) s = .next { s with
        opData := b, opM := true, opLine := 1#2, opCount := 0x1#4 ++ b, prog := .xfer, pidx := 0#4,
        curByte := b, rs := true, d := b.extractLsb' 4 4, half := .hi, ph := .pre, cnt := s.cfg.nSettle, st := .nib,
        trace := s.trace ++ evs })
    ∧ ∀ ps, NoReset ps → ps.length = 4 * s.cfg.nSettle + 2 * s.cfg.nPulse →
        andThen (exec (.xferD b) s) (runEdges ps) = .next { s with
          opData := b, opM := true, opLine := 1#2, opCount := 0x1#4 ++ b, prog := .xfer, pidx := 1#4,
          curByte := b, rs := true, e := false, d := b.extractLsb' 0 4, half := .lo, ph := .post, cnt := 1,
          st := .idle, trace := s.trace ++ xfer s.cfg b true }

/-- 42_line_addressing.md R150, R152: for every n of 1..4, above `LINES` or not, LINE n sends `LINE_BASE[n]` in Command
mode, one transfer, and nothing else. -/
def Obligations.LineCompletes : Prop :=
  ∀ (n : Nat) (s : State), s.cfg.valid = true → 1 ≤ n → n ≤ 4 →
    let base := match n with
      | 1 => s.cfg.lineBase.line1
      | 2 => s.cfg.lineBase.line2
      | 3 => s.cfg.lineBase.line3
      | _ => s.cfg.lineBase.line4
    encode (.line n) = BitVec.ofNat 16 (0x2000 + (n - 1) * 0x100)
    ∧ instrEvents s.cfg (.line n) = xfer s.cfg base false
    ∧ (∃ evs, exec (.line n) s = .next { latch (encode (.line n)) s with
        prog := .line, pidx := 0#4, curByte := base, rs := false, d := base.extractLsb' 4 4, half := .hi, ph := .pre,
        cnt := s.cfg.nSettle, st := .nib,
        trace := s.trace ++ evs })
    ∧ ∀ ps, NoReset ps → ps.length = 4 * s.cfg.nSettle + 2 * s.cfg.nPulse →
        andThen (exec (.line n) s) (runEdges ps) = .next { latch (encode (.line n)) s with
          prog := .line, pidx := 1#4, curByte := base, rs := false, e := false, d := base.extractLsb' 0 4, half := .lo,
          ph := .post, cnt := 1, st := .idle, trace := s.trace ++ xfer s.cfg base false }

/-- The model's choice of notes/assumptions/11.md, from 30_encoding.md R73: a line number outside 1..4 has no encoding
and no meaning. -/
def Obligations.LineOutsideRangeRefused : Prop :=
  ∀ (n : Nat) (s : State), ¬ (1 ≤ n ∧ n ≤ 4) → exec (.line n) s = .refused .lineNotEncodable

/-- 44_clear.md R190, R191, R192: CLEAR is 0x3000, sends 0x06 then 0x01 in Command mode, then waits `N_CLEAR` cycles
with RS = 0, E = 0 and D = 0x1, and only then is IDLE. -/
def Obligations.ClearCompletes : Prop :=
  ∀ s : State, s.cfg.valid = true →
    encode .clear = 0x3000#16
    ∧ instrEvents s.cfg .clear = xfer s.cfg 0x06 false ++ xfer s.cfg 0x01 false ++ [.sleep s.cfg.tClear]
    ∧ (∃ evs, exec .clear s = .next { s with
        opData := 0#8, opM := false, opLine := 0#2, opCount := 0#12, prog := .clear, pidx := 0#4, curByte := 0x06#8,
        rs := false, d := 0x0#4, half := .hi, ph := .pre, cnt := s.cfg.nSettle, st := .nib,
        trace := s.trace ++ evs })
    ∧ (∀ ps, NoReset ps → ps.length = s.cfg.transferCycles →
        ∃ t, andThen (exec .clear s) (runEdges ps) = .next t ∧ t.st = .nib ∧ t.half = .hi ∧ t.ph = .pre
          ∧ t.cnt = s.cfg.nSettle ∧ t.curByte = 0x01#8 ∧ t.rs = false ∧ t.e = false)
    ∧ (∀ ps, NoReset ps → 2 * s.cfg.transferCycles ≤ ps.length →
        ps.length < 2 * s.cfg.transferCycles + s.cfg.nClear →
        ∃ t, andThen (exec .clear s) (runEdges ps) = .next t ∧ t.st = .wait ∧ t.rs = false ∧ t.e = false
          ∧ t.d = 0x1#4)
    ∧ ∀ ps, NoReset ps → ps.length = 2 * s.cfg.transferCycles + s.cfg.nClear →
        andThen (exec .clear s) (runEdges ps) = .next { s with
          opData := 0#8, opM := false, opLine := 0#2, opCount := 0#12, prog := .clear, pidx := 3#4,
          curByte := 0x01#8, rs := false, e := false, d := 0x1#4, half := .lo, ph := .post, cnt := 1, st := .idle,
          trace := s.trace ++ xfer s.cfg 0x06 false ++ xfer s.cfg 0x01 false ++ [.sleep s.cfg.tClear] }

/-- 45_control.md R202, R203: DELAY waits `COUNT * N_UNIT` cycles with no line change; a COUNT of 0 takes no time and
leaves the engine IDLE at the accepting edge. -/
def Obligations.DelayCompletes : Prop :=
  ∀ (k : BitVec 12) (s : State), s.cfg.valid = true →
    let q : State := { s with
      opData := k.extractLsb' 0 8, opM := k.getLsbD 8, opLine := k.extractLsb' 8 2, opCount := k, prog := .delay }
    encode (.delay k) = 0x4000#16 + k.zeroExtend 16
    ∧ (k = 0#12 → instrEvents s.cfg (.delay k) = []
        ∧ exec (.delay k) s = .next { q with pidx := 1#4, st := .idle })
    ∧ (k ≠ 0#12 → instrEvents s.cfg (.delay k) = [.sleep (Ratio.scale k.toNat s.cfg.tUnit)]
        ∧ (∃ evs, exec (.delay k) s = .next { q with
            pidx := 0#4, cnt := k.toNat * s.cfg.nUnit, st := .wait, trace := s.trace ++ evs })
        ∧ (∀ ps, NoReset ps → ps.length < k.toNat * s.cfg.nUnit →
            ∃ t, andThen (exec (.delay k) s) (runEdges ps) = .next t ∧ t.st = .wait ∧ t.lines = s.lines)
        ∧ ∀ ps, NoReset ps → ps.length = k.toNat * s.cfg.nUnit →
            andThen (exec (.delay k) s) (runEdges ps) = .next { q with
              pidx := 1#4, cnt := 1, st := .idle,
              trace := s.trace ++ [.sleep (Ratio.scale k.toNat s.cfg.tUnit)] })

/-- 45_control.md R204: a reserved word sets `err` and changes nothing else, whether or not `err` was 1; at the
transaction level it has no event. -/
def Obligations.ReservedWordSetsErrOnly : Prop :=
  ∀ (w : Word) (why : ReservedWord), decode w = .reserved why →
    (∀ (p : Ports) (s : State), p.rst = false → p.cmdValid = true → p.cmdWord = w → s.st = .idle →
      edge p s = .next { s with err := true })
    ∧ ∀ (c : Config) (t : TLState), tlWord c t w = { t with err := true }

/-- What no command changes at its accepting edge: the configuration, the host, the output enable, Enable and both
flags (10_state.md R32, R39); NOP and DELAY change no line and no register of the nibble datapath (45_control.md R200,
R203), and NOP not the timer. -/
def Obligations.CommandFrame : Prop :=
  ∀ (i : Instr) (s t : State), exec i s = .next t →
    t.cfg = s.cfg ∧ t.host = s.host ∧ t.edgeNo = s.edgeNo ∧ t.oe = s.oe ∧ t.e = s.e ∧ t.initDone = s.initDone
    ∧ t.err = s.err ∧ (∃ evs, t.trace = s.trace ++ evs)
    ∧ ((i = .nop ∨ ∃ k, i = .delay k) →
        t.rs = s.rs ∧ t.d = s.d ∧ t.curByte = s.curByte ∧ t.half = s.half ∧ t.ph = s.ph)
    ∧ (i = .nop → t.cnt = s.cnt ∧ t.trace = s.trace)

/-- 42_line_addressing.md R151: LINE n is the same on the lines as `XFER.C LINE_BASE[n]`, at every edge of the
command. -/
def Obligations.LineActsAsXferC : Prop :=
  ∀ (n : Nat) (s : State) (ps : List Ports), s.cfg.valid = true → 1 ≤ n → n ≤ 4 → NoReset ps →
    ps.length ≤ s.cfg.transferCycles →
    ∃ t u, andThen (exec (.line n) s) (runEdges ps) = .next t
      ∧ andThen (exec (.xferC (lineBase s.cfg n)) s) (runEdges ps) = .next u
      ∧ t.lines = u.lines ∧ t.trace = u.trace ∧ t.st = u.st

/-! ### Timing -/

/-- 41_byte_transfer.md R130: every byte transfer, from the edge that enters it (0 edges later) on, is six phases of
fixed length in this order, with these levels on RS, Enable and the data lines. -/
def Obligations.TransferWaveform : Prop :=
  ∀ (b : Byte) (m : Bool) (s : State) (ps : List Ports), s.cfg.valid = true → s.e = false → NoReset ps →
    ps.length < 4 * s.cfg.nSettle + 2 * s.cfg.nPulse →
    let k := ps.length
    let S := s.cfg.nSettle
    let P := s.cfg.nPulse
    ∃ t, runEdges ps (enterX b m s) = .next t ∧ t.st = .nib ∧ t.oe = s.oe ∧ t.rs = m ∧ t.curByte = b
      ∧ t.half = (if k < 2 * S + P then .hi else .lo)
      ∧ t.ph = (if k < S then .pre else if k < S + P then .pulse else if k < 2 * S + P then .post
          else if k < 3 * S + P then .pre else if k < 3 * S + 2 * P then .pulse else .post)
      ∧ t.d = (if k < 2 * S + P then b.extractLsb' 4 4 else b.extractLsb' 0 4)
      ∧ t.e = decide ((S ≤ k ∧ k < S + P) ∨ (3 * S + P ≤ k ∧ k < 3 * S + 2 * P))

/-- 70_reset_and_hazards.md R270: every command, the bring-up program (from edge 1) and a reserved word are busy for
exactly their duration, whatever is on the command port meanwhile; and the durations under `P_REF` and `P_TOY`. -/
def Obligations.CommandDurations : Prop :=
  (∀ (i : Instr) (s : State) (ps : List Ports), i.wf = true → EngineInv s → s.st = .idle → NoReset ps →
    let cycles := match i with
      | .nop => 0
      | .xferC _ => s.cfg.transferCycles
      | .xferD _ => s.cfg.transferCycles
      | .line _ => s.cfg.transferCycles
      | .clear => 2 * s.cfg.transferCycles + s.cfg.nClear
      | .delay k => k.toNat * s.cfg.nUnit
    (ps.length < cycles →
      ∃ t, andThen (exec i s) (runEdges ps) = .next t ∧ t.st ≠ .idle)
    ∧ (ps.length = cycles →
      ∃ t, andThen (exec i s) (runEdges ps) = .next t ∧ t.st = .idle))
  ∧ (∀ (s : State) (p : Ports) (ps : List Ports), EngineInv s → s.st = .boot → NoReset (p :: ps) →
    (ps.length < s.cfg.nPowerup + 6 * s.cfg.transferCycles → ∃ t, runEdges (p :: ps) s = .next t ∧ t.st ≠ .idle)
    ∧ (ps.length = s.cfg.nPowerup + 6 * s.cfg.transferCycles → ∃ t, runEdges (p :: ps) s = .next t ∧ t.st = .idle))
  ∧ (∀ (s : State) (p : Ports) (why : ReservedWord), s.st = .idle → p.rst = false → p.cmdValid = true →
    decode p.cmdWord = .reserved why → ∃ t, edge p s = .next t ∧ t.st = .idle)
  ∧ (Config.pRef.nPowerup + 6 * Config.pRef.transferCycles = 36 ∧ Config.pRef.transferCycles = 6
    ∧ 2 * Config.pRef.transferCycles + Config.pRef.nClear = 462 ∧ Config.pRef.nUnit = 1)
  ∧ (Config.pToy.nPowerup + 6 * Config.pToy.transferCycles = 84 ∧ Config.pToy.transferCycles = 14
    ∧ 2 * Config.pToy.transferCycles + Config.pToy.nClear = 33 ∧ Config.pToy.nUnit = 1)

/-- 10_state.md R31: the number of cycles of a requested duration is the ceiling of its product with `F_CLK`, as rational
numbers. -/
def Obligations.CyclesAreCeilings : Prop :=
  ∀ (c : Config) (t : Ratio), 0 < t.den → 0 < c.fClk.den →
    c.cycles t = ⌈(t.num : ℚ) / t.den * ((c.fClk.num : ℚ) / c.fClk.den)⌉₊

/-- 40_init_sequencer.md R106, R103, R104: counting edges from the first without reset, `oe` is 1 from edge 1, transfer
j of the six starts at edge `1 + N_POWERUP + j * T_X`, and at edge `1 + N_POWERUP + 6 * T_X` the engine is IDLE with
`init_done = 1`, RS = 0, E = 0, D = 0x1 and the trace of INIT; before it, it is not IDLE and `init_done` is as before, and during the power-up wait the latches are
as they were. -/
def Obligations.BringUpCompletes : Prop :=
  ∀ (s : State) (ps : List Ports), s.cfg.valid = true → s.st = .boot → NoReset ps →
    (1 ≤ ps.length → ps.length < 1 + s.cfg.nPowerup + 6 * s.cfg.transferCycles →
      ∃ t, runEdges ps s = .next t ∧ t.oe = true ∧ t.st ≠ .idle ∧ t.initDone = s.initDone
        ∧ (ps.length < 1 + s.cfg.nPowerup → t.lines = { s.lines with oe := true }))
    ∧ (∀ j, j < 6 → ps.length = 1 + s.cfg.nPowerup + j * s.cfg.transferCycles →
      ∃ t, runEdges ps s = .next t ∧ t.st = .nib ∧ t.half = .hi ∧ t.ph = .pre ∧ t.cnt = s.cfg.nSettle ∧ t.rs = false
        ∧ [0x33#8, 0x32#8, 0x28#8, 0x0C#8, 0x06#8, 0x01#8][j]? = some t.curByte
        ∧ t.d = t.curByte.extractLsb' 4 4)
    ∧ (ps.length = 1 + s.cfg.nPowerup + 6 * s.cfg.transferCycles →
      runEdges ps s = .next { s with
        oe := true, rs := false, e := false, d := 0x1#4, st := .idle, prog := .init, pidx := 8#4,
        curByte := 0x01#8, half := .lo, ph := .post, cnt := 1, initDone := true,
        trace := s.trace ++ initEvents s.cfg })

/-- 41_byte_transfer.md R132: a phase or wait entered with `cnt = N` only counts at its first N - 1 edges and ends at
its N-th, by R133 in `NIB` and by `next()` in `WAIT`; `cnt` is never 0 in either. -/
def Obligations.PhaseLastsItsCount : Prop :=
  ∀ (s : State) (ps : List Ports), (s.st = .nib ∨ s.st = .wait) → 1 ≤ s.cnt → NoReset ps →
    (ps.length < s.cnt → runEdges ps s = .next { s with cnt := s.cnt - ps.length })
    ∧ (ps.length = s.cnt → s.st = .nib → runEdges ps s = phaseEnd { s with cnt := 1 })
    ∧ (ps.length = s.cnt → s.st = .wait → runEdges ps s = nextOp { s with cnt := 1 })
    ∧ (∀ t : State, EngineInv t → (t.st = .nib ∨ t.st = .wait) → t.cnt ≠ 0)

/-- 41_byte_transfer.md R133: what the edge that ends a phase does; RS is not written at the change of nibble, and the
end of the low nibble is `next()` of R131. -/
def Obligations.PhaseEndRules : Prop :=
  ∀ (p : Ports) (s : State), p.rst = false → s.st = .nib → s.cnt ≤ 1 →
    (s.ph = .pre → ∃ evs, edge p s = .next { s with
      e := true, ph := .pulse, cnt := s.cfg.nPulse, trace := s.trace ++ evs })
    ∧ (s.ph = .pulse → ∃ evs, edge p s = .next { s with
      e := false, ph := .post, cnt := s.cfg.nSettle, trace := s.trace ++ evs })
    ∧ (s.ph = .post → s.half = .hi → ∃ evs, edge p s = .next { s with
      half := .lo, d := s.curByte.extractLsb' 0 4, ph := .pre, cnt := s.cfg.nSettle, trace := s.trace ++ evs })
    ∧ (s.ph = .post → s.half = .lo →
      edge p s = enterFrom ((microProg s).drop (s.pidx + 1#4).toNat) { s with pidx := s.pidx + 1#4 })

/-- 41_byte_transfer.md R140 (b), with notes/assumptions/13.md for DELAY: an edge that applies an event group ends it
with the `Sleep` that begins there, and loads the timer with that sleep's cycles, `ceil(t * F_CLK)`; a DELAY of k units
loads `k * N_UNIT`. -/
def Obligations.SleepsAreRealized : Prop :=
  ∀ (p : Ports) (s t : State), EngineInv s → p.rst = false → edge p s = .next t → t.trace ≠ s.trace →
    (t.st = .nib ∨ t.st = .wait)
    ∧ ∃ r, t.trace.getLast? = some (.sleep r)
      ∧ (t.prog ≠ .delay → t.cnt = r.ceilMul s.cfg.fClk)
      ∧ (t.prog = .delay → r = Ratio.scale t.opCount.toNat s.cfg.tUnit ∧ t.cnt = t.opCount.toNat * s.cfg.nUnit)

/-! ### The two levels -/

/-- 41_byte_transfer.md R140 (a), (d): an edge without reset appends some events to the trace, and the lines and `oe`
after it are those events applied in order to the lines before it; an edge that appends none changes no line. -/
def Obligations.GroupsApplyAtOneEdge : Prop :=
  ∀ (p : Ports) (s t : State), p.rst = false → edge p s = .next t →
    ∃ evs, t.trace = s.trace ++ evs ∧ t.lines = s.lines.applyAll evs ∧ (evs = [] → t.lines = s.lines)

/-- 10_state.md R40, 20_memory.md R61: the cycle-level run of a command, from its accepting edge to its END, gives
exactly the transaction-level step. Its length is 70_reset_and_hazards.md R270's; for a DELAY of k units that is
k * N_UNIT edges, the choice of notes/assumptions/13.md between R202 and R140 (b). -/
def Obligations.CommandRefinesTransaction : Prop :=
  ∀ (i : Instr) (s : State) (ps : List Ports), i.wf = true → EngineInv s → s.st = .idle → NoReset ps →
    ps.length = instrCycles s.cfg i →
    ∃ t, andThen (exec i s) (runEdges ps) = .next t ∧ t.st = .idle ∧ t.tl = tlExec s.cfg i s.tl

/-- 40_init_sequencer.md R100, 10_state.md R40: from reset, the bring-up run gives exactly the first transaction-level
step. -/
def Obligations.BringUpRefinesTransaction : Prop :=
  ∀ (s : State) (ps : List Ports), EngineInv s → s.st = .boot → NoReset ps → ps.length = 1 + initCycles s.cfg →
    ∃ t, runEdges ps s = .next t ∧ t.st = .idle ∧ t.tl = tlInit s.cfg TLState.reset

/-- 41_byte_transfer.md R121, R122: the event list of a nibble, with its data-line writes in R122's order, and of a
transfer, its length, its two Enable pulses, and the lines after it. -/
def Obligations.TransferEventList : Prop :=
  ∀ (c : Config) (b : Byte) (m : Bool) (n : Nibble) (l : Lines),
    let writes : List Event :=
      [Event.set LcdLine.d4 false, Event.set LcdLine.d5 false, Event.set LcdLine.d6 false, Event.set LcdLine.d7 false]
        ++ (if n.getLsbD 0 then [Event.set LcdLine.d4 true] else [])
        ++ (if n.getLsbD 1 then [Event.set LcdLine.d5 true] else [])
        ++ (if n.getLsbD 2 then [Event.set LcdLine.d6 true] else [])
        ++ (if n.getLsbD 3 then [Event.set LcdLine.d7 true] else [])
    nibble c n = writes ++ [Event.sleep c.tSettle, Event.set LcdLine.e true, Event.sleep c.tPulse,
      Event.set LcdLine.e false, Event.sleep c.tSettle]
    ∧ l.applyAll writes = { l with d := n }
    ∧ xfer c b m = [Event.set LcdLine.rs m] ++ nibble c (b.extractLsb' 4 4) ++ nibble c (b.extractLsb' 0 4)
    ∧ (xfer c b m).length = 19 + ((List.range 8).filter (fun i => b.getLsbD i)).length
    ∧ pulses (xfer c b m) = 2
    ∧ l.applyAll (xfer c b m) = { l with rs := m, d := b.extractLsb' 0 4, e := false }

/-- 30_encoding.md R78: what the controller receives of a byte, one 5-bit phase per Enable pulse, whatever the lines
were before. It is stated at both edges of the pulses, and for every command and bring-up the two agree, so nothing here
rests on the edge that notes/assumptions/24.md chooses for `phases`. -/
def Obligations.TransferPhases : Prop :=
  ∀ (c : Config) (l : Lines),
    (∀ (v : Bool) (b : Byte) (m : Bool),
      phasesAt v l (xfer c b m) = [BitVec.ofBool m ++ b.extractLsb' 4 4, BitVec.ofBool m ++ b.extractLsb' 0 4])
    ∧ (∀ i : Instr, phasesAt true l (instrEvents c i) = phasesAt false l (instrEvents c i))
    ∧ phasesAt true l (initEvents c) = phasesAt false l (initEvents c)

/-! ### Reset, IDLE and the handshake -/

/-- 10_state.md R38: an edge with `rst = 1` gives every register its reset value, from every state and whatever is on
the command port; the configuration is no register. -/
def Obligations.ResetEdgeValues : Prop :=
  ∀ (p : Ports) (s : State), p.rst = true →
    ∃ t, edge p s = .next t ∧ t.cfg = s.cfg ∧ t.oe = false ∧ t.rs = false ∧ t.e = false ∧ t.d = 0b0000#4 ∧ t.st = .boot
      ∧ t.prog = .init ∧ t.pidx = 0#4 ∧ t.opData = 0#8 ∧ t.opM = false ∧ t.opLine = 0#2 ∧ t.opCount = 0#12
      ∧ t.curByte = 0#8 ∧ t.half = .hi ∧ t.ph = .pre ∧ t.cnt = 0 ∧ t.initDone = false ∧ t.err = false

/-- The model's choices: `State.reset` is what a reset edge makes of it, under `P_REF` (notes/assumptions/3.md); a reset
edge empties the trace (notes/assumptions/5.md) and keeps the host and the edge count (notes/assumptions/2.md, 9.md). -/
def Obligations.ResetStateIsReset : Prop :=
  State.reset = resetEdge State.reset ∧ State.reset.cfg = Config.pRef ∧ EngineInv State.reset ∧ Paired State.reset
  ∧ ∀ (p : Ports) (s : State), p.rst = true →
    ∃ t, edge p s = .next t ∧ t.trace = [] ∧ t.host = s.host ∧ t.edgeNo = s.edgeNo

/-- 41_byte_transfer.md R135: `IDLE` keeps every register at an edge with no command. 60_exceptions.md R241 (with
notes/assumptions/23.md for what presents a command): a run is over when the engine is IDLE and brought up and no move of
the host's script presents a command; it then stays over, with every register as it was, but for a reset. -/
def Obligations.IdleKeepsEverything : Prop :=
  (∀ (p : Ports) (s : State), p.rst = false → p.cmdValid = false → s.st = .idle → edge p s = .next s)
  ∧ (∀ s : State, runOver s = true ↔
      s.st = .idle ∧ s.initDone = true ∧ (∀ w, .present w ∉ s.host) ∧ ∀ p, .levels p ∈ s.host → p.cmdValid = false)
  ∧ ∀ s t : State, runOver s = true → (hostPorts s).rst = false → step s = .next t →
      runOver t = true ∧ t = { s with host := t.host, edgeNo := s.edgeNo + 1 }

/-- 20_memory.md R55, R65, 40_init_sequencer.md R105: while the engine is not IDLE, what is on the command port changes
nothing. -/
def Obligations.BusyIgnoresCommandPort : Prop :=
  ∀ (p q : Ports) (s : State), p.rst = false → q.rst = false → s.st ≠ .idle → edge p s = edge q s

/-- 10_state.md R33: the handshake outputs, and when a command is accepted. 60_exceptions.md R240, 40_init_sequencer.md
R105: a presented word is held while the engine is busy or in bring-up, and taken off the port at the edge the IDLE engine
accepts it. -/
def Obligations.HeldCommandWaits : Prop :=
  (∀ (p : Ports) (s : State),
    (cmdReady p s = true ↔ s.st = .idle ∧ p.rst = false)
    ∧ busy p s = !cmdReady p s
    ∧ (accepts p s = true ↔ p.cmdValid = true ∧ s.st = .idle ∧ p.rst = false))
  ∧ ∀ (s t : State) (w : Word) (ms : List HostMove), s.host = .present w :: ms → step s = .next t →
    (s.st ≠ .idle → t.host = .present w :: ms) ∧ (s.st = .idle → t.host = ms)

/-! ### Invariants -/

/-- Every step keeps the invariant `Safety.EngineInv`, from every state that meets it, reached by a run or not. -/
def Obligations.InvariantKeptByStep : Prop :=
  ∀ s t : State, EngineInv s → step s = .next t → EngineInv t

/-- 41_byte_transfer.md R137: the engine never blocks: every state that meets the invariant has a next state at every
edge, whatever the inputs. -/
def Obligations.EngineNeverBlocks : Prop :=
  ∀ s : State, EngineInv s →
    (∀ p : Ports, ∃ t, edge p s = .next t) ∧ (drivesLine s = false → ∃ t, step s = .next t)

/-- 20_memory.md R55: without reset every command and the bring-up program run to completion, in exactly the number of
edges `Safety.remaining` gives, and not sooner. -/
def Obligations.IdleReachedInRemaining : Prop :=
  ∀ (s : State) (ps : List Ports), EngineInv s → NoReset ps →
    (ps.length < remaining s → ∃ t, runEdges ps s = .next t ∧ t.st ≠ .idle)
    ∧ (ps.length = remaining s → ∃ t, runEdges ps s = .next t ∧ t.st = .idle)

/-- 20_memory.md R52: Enable pulses come in pairs: every step keeps the pairing, and an IDLE or waiting engine has sent
an even number. -/
def Obligations.NibblePairingKept : Prop :=
  (∀ s t : State, EngineInv s → Paired s → step s = .next t → Paired t)
  ∧ ∀ s : State, Paired s → s.st ≠ .nib → pulses s.trace % 2 = 0

/-- 41_byte_transfer.md R136, 70_reset_and_hazards.md R261: `e = 1` exactly in the pulse phase; an edge without reset
that changes RS or a data line has Enable low before and after it and begins a settle phase of `N_SETTLE` cycles, and an
edge that lowers Enable begins one too. -/
def Obligations.DataStableAroundEnable : Prop :=
  ∀ (p : Ports) (s t : State), EngineInv s → p.rst = false → edge p s = .next t →
    (t.e = true ↔ t.st = .nib ∧ t.ph = .pulse)
    ∧ (t.rs ≠ s.rs ∨ t.d ≠ s.d →
        s.e = false ∧ t.e = false ∧ t.st = .nib ∧ t.ph = .pre ∧ t.cnt = s.cfg.nSettle)
    ∧ (s.e = true → t.e = false → t.rs = s.rs ∧ t.d = s.d ∧ t.st = .nib ∧ t.ph = .post ∧ t.cnt = s.cfg.nSettle)

/-- 45_control.md R206, 60_exceptions.md R229: the timer always holds a value that `CNT_W` bits hold. -/
def Obligations.TimerFitsItsWidth : Prop :=
  ∀ s t : State, EngineInv s → step s = .next t → t.cnt < 2 ^ t.cfg.cntW ∧ t.pidx.toNat ≤ 8

/-! ### Flags, outputs, configuration -/

/-- 10_state.md R32: `err` is set by accepting a reserved word and by nothing else, `init_done` by the end of the
bring-up program and by nothing else, and only reset clears them. -/
def Obligations.FlagsChangeOnlyAsStated : Prop :=
  ∀ (p : Ports) (s t : State), edge p s = .next t →
    (p.rst = true → t.err = false ∧ t.initDone = false)
    ∧ (p.rst = false →
        t.err = (s.err || (accepts p s && match decode p.cmdWord with
          | .reserved _ => true
          | .legal _ => false))
        ∧ t.initDone = (s.initDone || decide (s.st ≠ .idle ∧ s.prog = .init ∧ t.st = .idle)))

/-- 10_state.md R23: while `oe = 0` nothing is driven and the controller sees a free value; while `oe = 1` each line
carries its latch; the first edge of bring-up sets `oe` and only reset clears it. -/
def Obligations.OutputEnableRule : Prop :=
  (∀ (s : State) (l : LcdLine), s.oe = false →
    driven s l = none ∧ controllerLevel s l = Config.undrivenLevel s.edgeNo l)
  ∧ (∀ s : State, s.oe = true →
    driven s .rs = some s.rs ∧ driven s .e = some s.e ∧ driven s .d4 = some (s.d.getLsbD 0)
    ∧ driven s .d5 = some (s.d.getLsbD 1) ∧ driven s .d6 = some (s.d.getLsbD 2)
    ∧ driven s .d7 = some (s.d.getLsbD 3))
  ∧ State.reset.oe = false
  ∧ ∀ (p : Ports) (s t : State), edge p s = .next t →
    (p.rst = true → t.oe = false)
    ∧ (p.rst = false → EngineInv s → t.oe = (s.oe || decide (s.st = .boot)))

/-- 10_state.md R39: no step changes the configuration. -/
def Obligations.ConfigurationIsConstant : Prop :=
  ∀ s t : State, step s = .next t → t.cfg = s.cfg

/-- 70_reset_and_hazards.md R254 (1), 93_implementation_defined.md U6: a step is refused as `invalidConfig` exactly when
the configuration breaks one of the boot requirements. -/
def Obligations.InvalidConfigurationRefused : Prop :=
  ∀ s : State, step s = .refused .invalidConfig ↔
    ¬ ((0 < s.cfg.tSettle.den ∧ 0 < s.cfg.tPulse.den ∧ 0 < s.cfg.tClear.den ∧ 0 < s.cfg.tPowerup.den
        ∧ 0 < s.cfg.tUnit.den ∧ 0 < s.cfg.fClk.den ∧ 0 < s.cfg.typedSpeedDefault.den)
      ∧ 1 ≤ s.cfg.nSettle ∧ 1 ≤ s.cfg.nPulse ∧ 1 ≤ s.cfg.nClear ∧ 1 ≤ s.cfg.nUnit
      ∧ 45 * s.cfg.tClear.den ≤ 100 * s.cfg.tClear.num
      ∧ s.cfg.nSettle < 2 ^ s.cfg.cntW ∧ s.cfg.nPulse < 2 ^ s.cfg.cntW ∧ s.cfg.nClear < 2 ^ s.cfg.cntW
      ∧ s.cfg.nPowerup < 2 ^ s.cfg.cntW ∧ 4095 * s.cfg.nUnit < 2 ^ s.cfg.cntW)

/-- 93_implementation_defined.md U10, 70_reset_and_hazards.md R265: another driver of an LCD line is a fault. -/
def Obligations.ForeignDriverFaults : Prop :=
  ∀ (s : State) (l : LcdLine) (v : Bool) (ms : List HostMove), s.cfg.valid = true →
    s.host = .foreignDrive l v :: ms → step s = .fault .foreignDriver

/-- 00_scope.md R8: the cycle counts of the two reference sets, both valid. -/
def Obligations.ReferenceCounts : Prop :=
  (Config.pRef.valid = true ∧ Config.pRef.nSettle = 1 ∧ Config.pRef.nPulse = 1 ∧ Config.pRef.nClear = 450
    ∧ Config.pRef.nUnit = 1 ∧ Config.pRef.nPowerup = 0)
  ∧ (Config.pToy.valid = true ∧ Config.pToy.nSettle = 2 ∧ Config.pToy.nPulse = 3 ∧ Config.pToy.nClear = 5
    ∧ Config.pToy.nUnit = 1 ∧ Config.pToy.nPowerup = 0)

/-- 20_memory.md R57, 10_state.md R25: the source's line bases and pin identifiers. -/
def Obligations.SourceConstants : Prop :=
  lineBase Config.pRef 1 = 0x80 ∧ lineBase Config.pRef 2 = 0xC0 ∧ lineBase Config.pRef 3 = 0x94
  ∧ lineBase Config.pRef 4 = 0xD4
  ∧ lineAtPin Config.pRef 16 = some .rs ∧ lineAtPin Config.pRef 17 = some .e ∧ lineAtPin Config.pRef 22 = some .d4
  ∧ lineAtPin Config.pRef 19 = some .d5 ∧ lineAtPin Config.pRef 20 = some .d6 ∧ lineAtPin Config.pRef 21 = some .d7
  ∧ lineAtPin Config.pRef 18 = none

/-! ### The host's composer and assembler -/

/-- 43_text_composition.md R161, R162, R163, R164: the three paddings, and the refusal of a longer text. -/
def Obligations.PaddingRules : Prop :=
  ∀ (c : Config) (s : List Char),
    let k := c.width - s.length
    (s.length ≤ c.width →
      padL c s = some (s ++ List.replicate k ' ')
      ∧ padR c s = some (List.replicate k ' ' ++ s)
      ∧ padC c s = some (List.replicate (k / 2) ' ' ++ s ++ List.replicate (k - k / 2) ' '))
    ∧ (c.width < s.length → padL c s = none ∧ padC c s = none ∧ padR c s = none)

/-- 43_text_composition.md R165: padding gives exactly `WIDTH` characters, and padding them again changes nothing. -/
def Obligations.PaddingExactAndIdempotent : Prop :=
  ∀ (c : Config) (style : Style) (s : List Char), s.length ≤ c.width →
    ∃ t, pad c style s = some t ∧ t.length = c.width ∧ pad c style t = some t

/-- 43_text_composition.md R164, R166, R171, R178: a pseudo-instruction is refused, whole, exactly when a text or a part
of a message is longer than `WIDTH`, a character's code is above 0xFF, or a line number is outside 1..4. -/
def Obligations.ComposerRefusesExactly : Prop :=
  ∀ (c : Config) (style : Style) (s : List Char) (v : Option Ratio) (n : Nat),
    ((∃ why, expand c (.text style s v) = .refuses why) ↔ c.width < s.length ∨ ∃ ch ∈ s, 0xFF < ch.toNat)
    ∧ ((∃ why, expand c (.write n style s v) = .refuses why) ↔
        ¬ (1 ≤ n ∧ n ≤ 4) ∨ c.width < s.length ∨ ∃ ch ∈ s, 0xFF < ch.toNat)
    ∧ ((∃ why, expand c (.msg style s v) = .refuses why) ↔
        ∃ p ∈ splitLines s, c.width < p.length ∨ ∃ ch ∈ p, 0xFF < ch.toNat)

/-- 43_text_composition.md R170: `WRITE n` is LINE n and then the text in its style. -/
def Obligations.WriteAddressesThenSends : Prop :=
  ∀ (c : Config) (n : Nat) (style : Style) (s : List Char) (v : Option Ratio) (is : List Instr), 1 ≤ n → n ≤ 4 →
    expand c (.text style s v) = .emits is → expand c (.write n style s v) = .emits (.line n :: is)

/-- 43_text_composition.md R172, R173, R174: Left, Center and Right send one XFER.D for each character of the padded
text, in order, `WIDTH` of them and nothing else. -/
def Obligations.TextSendsEveryCharacter : Prop :=
  ∀ (c : Config) (style : Style) (s t : List Char) (v : Option Ratio), style ≠ .typed → pad c style s = some t →
    (∀ ch ∈ s, ch.toNat ≤ 0xFF) →
    expandText c style v s = .emits (t.map (fun ch => .xferD (BitVec.ofNat 8 ch.toNat))) ∧ t.length = c.width

/-- 43_text_composition.md R168: a Typed speed of v seconds is `ceil(v / T_UNIT)` units, `TYPED_SPEED_DEFAULT` standing
for a speed not given; u units become `floor(u / 4095)` commands `DELAY 4095` and one `DELAY (u mod 4095)` if that is
not 0, which together wait u units. -/
def Obligations.TypedDelayUnits : Prop :=
  (∀ (c : Config) (v : Option Ratio), c.valid = true → 0 < (v.getD c.typedSpeedDefault).den →
    typedUnits c v = ⌈((v.getD c.typedSpeedDefault).num : ℚ) / (v.getD c.typedSpeedDefault).den
      / ((c.tUnit.num : ℚ) / c.tUnit.den)⌉₊)
  ∧ ∀ u : Nat,
    delayCommands u = List.replicate (u / 4095) (.delay 4095#12)
      ++ (if u % 4095 = 0 then [] else [.delay (BitVec.ofNat 12 (u % 4095))])
    ∧ ((delayCommands u).map unitsOf).sum = u

/-- 43_text_composition.md R175: Typed sends the characters of Left, and after each non-space, and only there, the
delays of its speed. -/
def Obligations.TypedDelaysFollowNonSpaces : Prop :=
  ∀ (c : Config) (s t : List Char) (v : Option Ratio), padL c s = some t → (∀ ch ∈ s, ch.toNat ≤ 0xFF) →
    ∃ is, expandText c .typed v s = .emits is
      ∧ is = (t.map (fun ch => Instr.xferD (BitVec.ofNat 8 ch.toNat)
          :: if ch = ' ' then [] else delayCommands (typedUnits c v))).flatten
      ∧ is.filter (fun i => !isDelay i) = t.map (fun ch => .xferD (BitVec.ofNat 8 ch.toNat))

/-- 43_text_composition.md R177: a text with j line feeds has exactly j + 1 parts, none of which holds a line feed, and
joined by line feeds they are the text. -/
def Obligations.MessageParts : Prop :=
  ∀ s : List Char,
    (splitLines s).length = s.count '\n' + 1
    ∧ (∀ p ∈ splitLines s, '\n' ∉ p)
    ∧ List.intercalate ['\n'] (splitLines s) = s

/-- 43_text_composition.md R176: a message sends its parts in order, each after its addressing command: LINE 1, LINE 2,
then with `EXTEND_LINES` LINE 3 and LINE 4, and no command for any other part. -/
def Obligations.MessageAddressing : Prop :=
  ∀ (c : Config) (style : Style) (s : List Char) (v : Option Ratio) (texts : List (List Instr)),
    (splitLines s).map (expandText c style v) = texts.map .emits →
    expand c (.msg style s v) = .emits (texts.zipIdx.map (fun p =>
      (if p.2 = 0 then [.line 1] else if p.2 = 1 then [.line 2]
        else if p.2 = 2 ∧ c.extendLines = true then [.line 3]
        else if p.2 = 3 ∧ c.extendLines = true then [.line 4] else []) ++ p.1)).flatten

/-- 30_encoding.md R82: lines of the assembler's table, a comment, and out-of-range operands, for which nothing is
emitted. The model's choices of notes/assumptions/17.md: a line ends at a line feed, and a line with only a comment emits
nothing. -/
def Obligations.AssemblerTable : Prop :=
  assemble "NOP\nXFER.C 0x28\nXFER.D 'A' ; text\nLINE 4\nCLEAR\nDELAY 4095\n.word 0xF000\nXFER.C 0b101".toList
    = [.emits [0x0000], .emits [0x1028], .emits [0x1141], .emits [0x2300], .emits [0x3000], .emits [0x4FFF],
      .emits [0xF000], .emits [0x1005]]
  ∧ assemble "XFER.C 256\nLINE 5\nLINE 0\nDELAY 4096\n; only a comment".toList
    = [.error .range, .error .range, .error .range, .error .range, .emits []]

/-- 70_reset_and_hazards.md R262: after `XFER.C 0x01` a host owes `ceil(T_CLEAR / T_UNIT)` units of DELAY before any
transfer: each DELAY lowers what is owed by its units, and any transfer, with or without a DELAY too short before it,
breaks the duty while some are owed. -/
def Obligations.BusyWindowDuty : Prop :=
  (∀ c : Config, c.valid = true →
    clearUnits c = ⌈((c.tClear.num : ℚ) / c.tClear.den) / ((c.tUnit.num : ℚ) / c.tUnit.den)⌉₊)
  ∧ clearUnits Config.pRef = 450
  ∧ ∀ (c : Config) (k : BitVec 12) (i : Instr) (is : List Instr),
    keepsBusyWindow c 0 (.xferC 0x01 :: .delay k :: is) = keepsBusyWindow c (clearUnits c - k.toNat) is
    ∧ (clearUnits c ≤ k.toNat →
      keepsBusyWindow c 0 (.xferC 0x01 :: .delay k :: is) = keepsBusyWindow c 0 is)
    ∧ ((∃ b, i = .xferC b) ∨ (∃ b, i = .xferD b) ∨ (∃ n, i = .line n) ∨ i = .clear →
      (k.toNat < clearUnits c → keepsBusyWindow c 0 (.xferC 0x01 :: .delay k :: i :: is) = false)
      ∧ (0 < clearUnits c → keepsBusyWindow c 0 (.xferC 0x01 :: i :: is) = false))
end

