-- ==== Sys2Proof/Laws/Encoding.lean ====
section
/-! SUPPORT. The fields of an encoded command (30_encoding.md R70, R73). -/

namespace Sys2Proof

/-- The low field of a concatenation. -/
theorem extract_low {m n : Nat} (a : BitVec m) (b : BitVec n) : (a ++ b).extractLsb' 0 n = b := by
  ext i hi
  simp [BitVec.getLsbD_append, hi]

/-- The high field of a concatenation. -/
theorem extract_high {m n : Nat} (a : BitVec m) (b : BitVec n) : (a ++ b).extractLsb' n m = a := by
  ext i hi
  simp [BitVec.getLsbD_append, BitVec.getLsbD_eq_getElem hi]

@[simp] theorem wordData_xferC (b : Byte) : wordData (encode (.xferC b)) = b := extract_low _ _
@[simp] theorem wordData_xferD (b : Byte) : wordData (encode (.xferD b)) = b := extract_low _ _
@[simp] theorem wordCount_delay (c : BitVec 12) : wordCount (encode (.delay c)) = c := extract_low _ _
@[simp] theorem wordOp_delay (c : BitVec 12) : wordOp (encode (.delay c)) = 4#4 := extract_high _ _

@[simp] theorem wordM_xferC (b : Byte) : wordM (encode (.xferC b)) = false :=
  (BitVec.getLsbD_append (x := 0x10#8) (y := b)).trans (by simp)
@[simp] theorem wordM_xferD (b : Byte) : wordM (encode (.xferD b)) = true :=
  (BitVec.getLsbD_append (x := 0x11#8) (y := b)).trans (by simp)

@[simp] theorem wordL_line (n : Nat) : wordL (encode (.line n)) = lineField n := by
  show (0b001000#6 ++ lineField n ++ 0x00#8).extractLsb' 8 2 = lineField n
  generalize lineField n = l
  revert l
  decide

/-- The decoder answers well-formed commands only (30_encoding.md R73). -/
theorem wf_of_decode {w : Word} {i : Instr} (h : decode w = .legal i) : i.wf = true := by
  unfold decode at h
  split_ifs at h <;> simp only [Decoded.legal.injEq] at h <;> subst h <;> try rfl
  have := (wordL w).isLt
  simp [Instr.wf, lineNumber]
  omega

/-! ### Words as numbers -/

theorem toNat_concat {m n : Nat} (a : BitVec m) (b : BitVec n) : (a ++ b).toNat = a.toNat * 2 ^ n + b.toNat := by
  rw [BitVec.toNat_append, ← Nat.shiftLeft_add_eq_or_of_lt b.isLt, Nat.shiftLeft_eq]

theorem field_toNat {w : Nat} (x : BitVec w) (i n : Nat) :
    (x.extractLsb' i n).toNat = x.toNat / 2 ^ i % 2 ^ n := by
  simp [BitVec.extractLsb'_toNat, Nat.shiftRight_eq_div_pow]

theorem wordM_eq (w : Word) : wordM w = decide (w.toNat / 256 % 2 = 1) := by
  simp only [wordM, BitVec.getLsbD, Nat.testBit, Nat.shiftRight_eq_div_pow, Nat.and_comm 1]
  by_cases h : w.toNat / 256 % 2 = 1 <;> simp [h]

theorem encode_xferC_toNat (b : Byte) : (encode (.xferC b)).toNat = 0x1000 + b.toNat :=
  (toNat_concat 0x10#8 b).trans (by simp)

theorem encode_xferD_toNat (b : Byte) : (encode (.xferD b)).toNat = 0x1100 + b.toNat :=
  (toNat_concat 0x11#8 b).trans (by simp)

theorem encode_delay_toNat (c : BitVec 12) : (encode (.delay c)).toNat = 0x4000 + c.toNat :=
  (toNat_concat 0x4#4 c).trans (by simp)

theorem encode_line_toNat (n : Nat) : (encode (.line n)).toNat = 0x2000 + (n - 1) % 4 * 256 := by
  refine (toNat_concat (0b001000#6 ++ lineField n) 0#8).trans ?_
  rw [toNat_concat]
  simp [lineField]
  omega

@[simp] theorem wordL_xferC (b : Byte) : wordL (encode (.xferC b)) = 0#2 := by
  have := b.isLt
  apply BitVec.eq_of_toNat_eq
  rw [wordL, field_toNat, encode_xferC_toNat]
  simp
  omega

@[simp] theorem wordL_xferD (b : Byte) : wordL (encode (.xferD b)) = 1#2 := by
  have := b.isLt
  apply BitVec.eq_of_toNat_eq
  rw [wordL, field_toNat, encode_xferD_toNat]
  simp
  omega

@[simp] theorem wordCount_xferC (b : Byte) : wordCount (encode (.xferC b)) = 0x0#4 ++ b := by
  have := b.isLt
  apply BitVec.eq_of_toNat_eq
  rw [wordCount, field_toNat, encode_xferC_toNat]
  refine Eq.trans ?_ (toNat_concat 0x0#4 b).symm
  simp
  omega

@[simp] theorem wordCount_xferD (b : Byte) : wordCount (encode (.xferD b)) = 0x1#4 ++ b := by
  have := b.isLt
  apply BitVec.eq_of_toNat_eq
  rw [wordCount, field_toNat, encode_xferD_toNat]
  refine Eq.trans ?_ (toNat_concat 0x1#4 b).symm
  simp
  omega

@[simp] theorem wordData_delay (c : BitVec 12) : wordData (encode (.delay c)) = c.extractLsb' 0 8 := by
  apply BitVec.eq_of_toNat_eq
  rw [wordData, field_toNat, field_toNat, encode_delay_toNat]
  simp
  omega

@[simp] theorem wordL_delay (c : BitVec 12) : wordL (encode (.delay c)) = c.extractLsb' 8 2 := by
  apply BitVec.eq_of_toNat_eq
  rw [wordL, field_toNat, field_toNat, encode_delay_toNat]
  simp
  omega

@[simp] theorem wordM_delay (c : BitVec 12) : wordM (encode (.delay c)) = c.getLsbD 8 :=
  (BitVec.getLsbD_append (x := 0x4#4) (y := c)).trans (by simp)

end Sys2Proof
end

