-- ==== Sys2Proof/Laws/Lines.lean ====
section
/-! SUPPORT. What event lists do to the lines, and what they hold (41_byte_transfer.md R121, R122, R140). -/

namespace Sys2Proof.Machine

@[simp] theorem applyAll_nil (l : Lines) : l.applyAll [] = l := rfl

@[simp] theorem applyAll_cons (l : Lines) (ev : Event) (evs : List Event) :
    l.applyAll (ev :: evs) = (l.apply ev).applyAll evs := rfl

@[simp] theorem applyAll_append (l : Lines) (xs ys : List Event) :
    l.applyAll (xs ++ ys) = (l.applyAll xs).applyAll ys := by
  simp [Lines.applyAll, List.foldl_append]

@[simp] theorem pulses_nil : pulses [] = 0 := rfl

@[simp] theorem pulses_append (xs ys : List Event) : pulses (xs ++ ys) = pulses xs + pulses ys := by
  simp [pulses, List.countP_append]

/-- Whatever the data lines held, after the data events of a nibble they hold the nibble (41_byte_transfer.md R122). -/
@[simp] theorem applyAll_dataEvents (l : Lines) (n : Nibble) : l.applyAll (dataEvents n) = { l with d := n } := by
  have clear : ∀ d : Nibble,
      setDataBit (setDataBit (setDataBit (setDataBit d 0 false) 1 false) 2 false) 3 false = 0#4 := by decide
  obtain ⟨oe, rs, e, d⟩ := l
  have hd := clear d
  obtain ⟨⟨k, hk⟩⟩ := n
  have : k < 16 := hk
  interval_cases k <;> simp [dataEvents, Lines.apply, hd] <;> rfl

/-- The data events of a nibble hold no Enable pulse. -/
@[simp] theorem pulses_dataEvents (n : Nibble) : pulses (dataEvents n) = 0 := by
  unfold dataEvents
  split_ifs <;> rfl

/-- The six `Cfg` events drive the lines and change no latch (40_init_sequencer.md R101). -/
@[simp] theorem applyAll_cfgEvents (l : Lines) : l.applyAll cfgEvents = { l with oe := true } := rfl

@[simp] theorem pulses_cfgEvents : pulses cfgEvents = 0 := rfl

/-- A nibble leaves its bits on the data lines and Enable low (41_byte_transfer.md R122). -/
@[simp] theorem applyAll_nibble (c : Config) (l : Lines) (n : Nibble) :
    l.applyAll (nibble c n) = { l with d := n, e := false } := by
  simp [nibble, Lines.apply]

/-- A nibble holds one Enable pulse. -/
@[simp] theorem pulses_nibble (c : Config) (n : Nibble) : pulses (nibble c n) = 1 := by
  simp only [nibble, pulses_append, pulses_dataEvents]
  simp [pulses]

/-- A transfer leaves the mode on RS, the low nibble on the data lines and Enable low (41_byte_transfer.md R121). -/
@[simp] theorem applyAll_xfer (c : Config) (l : Lines) (b : Byte) (m : Bool) :
    l.applyAll (xfer c b m) = { l with rs := m, d := loNibble b, e := false } := by
  simp [xfer, Lines.apply]

/-- A transfer holds two Enable pulses (20_memory.md R52). -/
@[simp] theorem pulses_xfer (c : Config) (b : Byte) (m : Bool) : pulses (xfer c b m) = 2 := by
  simp only [xfer, pulses_append, pulses_nibble]
  simp [pulses]

theorem phasesAt_append (v : Bool) (l : Lines) (xs ys : List Event) :
    phasesAt v l (xs ++ ys) = phasesAt v l xs ++ phasesAt v (l.applyAll xs) ys := by
  induction xs generalizing l with
  | nil => rfl
  | cons x xs ih =>
    simp only [List.cons_append, phasesAt, applyAll_cons, ih]
    split <;> simp

@[simp] theorem phasesAt_dataEvents (v : Bool) (l : Lines) (n : Nibble) : phasesAt v l (dataEvents n) = [] := by
  unfold dataEvents
  split_ifs <;> rfl

/-- The parts of a transfer that the six phases emit, in order, are the transfer (41_byte_transfer.md R130, R121). -/
theorem xfer_parts (c : Config) (b : Byte) (m : Bool) :
    xfer c b m = ([Event.set LcdLine.rs m] ++ dataEvents (hiNibble b) ++ [Event.sleep c.tSettle])
      ++ [Event.set LcdLine.e true, Event.sleep c.tPulse] ++ [Event.set LcdLine.e false, Event.sleep c.tSettle]
      ++ (dataEvents (loNibble b) ++ [Event.sleep c.tSettle])
      ++ [Event.set LcdLine.e true, Event.sleep c.tPulse] ++ [Event.set LcdLine.e false, Event.sleep c.tSettle] := by
  simp [xfer, nibble]

end Sys2Proof.Machine
end

