-- ==== Sys2Proof/Laws/State.lean ====
section
/-! SUPPORT. One lemma per field per update of the state, so that no later proof unfolds a record update. -/

namespace Sys2Proof.Machine

/-! ### `emit` -/

@[simp] theorem emit_cfg (evs : List Event) (s : State) : (emit evs s).cfg = s.cfg := rfl
@[simp] theorem emit_oe (evs : List Event) (s : State) : (emit evs s).oe = s.oe := rfl
@[simp] theorem emit_rs (evs : List Event) (s : State) : (emit evs s).rs = s.rs := rfl
@[simp] theorem emit_e (evs : List Event) (s : State) : (emit evs s).e = s.e := rfl
@[simp] theorem emit_d (evs : List Event) (s : State) : (emit evs s).d = s.d := rfl
@[simp] theorem emit_st (evs : List Event) (s : State) : (emit evs s).st = s.st := rfl
@[simp] theorem emit_prog (evs : List Event) (s : State) : (emit evs s).prog = s.prog := rfl
@[simp] theorem emit_pidx (evs : List Event) (s : State) : (emit evs s).pidx = s.pidx := rfl
@[simp] theorem emit_opData (evs : List Event) (s : State) : (emit evs s).opData = s.opData := rfl
@[simp] theorem emit_opM (evs : List Event) (s : State) : (emit evs s).opM = s.opM := rfl
@[simp] theorem emit_opLine (evs : List Event) (s : State) : (emit evs s).opLine = s.opLine := rfl
@[simp] theorem emit_opCount (evs : List Event) (s : State) : (emit evs s).opCount = s.opCount := rfl
@[simp] theorem emit_curByte (evs : List Event) (s : State) : (emit evs s).curByte = s.curByte := rfl
@[simp] theorem emit_half (evs : List Event) (s : State) : (emit evs s).half = s.half := rfl
@[simp] theorem emit_ph (evs : List Event) (s : State) : (emit evs s).ph = s.ph := rfl
@[simp] theorem emit_cnt (evs : List Event) (s : State) : (emit evs s).cnt = s.cnt := rfl
@[simp] theorem emit_initDone (evs : List Event) (s : State) : (emit evs s).initDone = s.initDone := rfl
@[simp] theorem emit_err (evs : List Event) (s : State) : (emit evs s).err = s.err := rfl
@[simp] theorem emit_trace (evs : List Event) (s : State) : (emit evs s).trace = s.trace ++ evs := rfl
@[simp] theorem emit_host (evs : List Event) (s : State) : (emit evs s).host = s.host := rfl
@[simp] theorem emit_edgeNo (evs : List Event) (s : State) : (emit evs s).edgeNo = s.edgeNo := rfl

/-! ### `latch` -/

@[simp] theorem latch_cfg (w : Word) (s : State) : (latch w s).cfg = s.cfg := rfl
@[simp] theorem latch_oe (w : Word) (s : State) : (latch w s).oe = s.oe := rfl
@[simp] theorem latch_rs (w : Word) (s : State) : (latch w s).rs = s.rs := rfl
@[simp] theorem latch_e (w : Word) (s : State) : (latch w s).e = s.e := rfl
@[simp] theorem latch_d (w : Word) (s : State) : (latch w s).d = s.d := rfl
@[simp] theorem latch_st (w : Word) (s : State) : (latch w s).st = s.st := rfl
@[simp] theorem latch_prog (w : Word) (s : State) : (latch w s).prog = s.prog := rfl
@[simp] theorem latch_pidx (w : Word) (s : State) : (latch w s).pidx = s.pidx := rfl
@[simp] theorem latch_opData (w : Word) (s : State) : (latch w s).opData = wordData w := rfl
@[simp] theorem latch_opM (w : Word) (s : State) : (latch w s).opM = wordM w := rfl
@[simp] theorem latch_opLine (w : Word) (s : State) : (latch w s).opLine = wordL w := rfl
@[simp] theorem latch_opCount (w : Word) (s : State) : (latch w s).opCount = wordCount w := rfl
@[simp] theorem latch_curByte (w : Word) (s : State) : (latch w s).curByte = s.curByte := rfl
@[simp] theorem latch_half (w : Word) (s : State) : (latch w s).half = s.half := rfl
@[simp] theorem latch_ph (w : Word) (s : State) : (latch w s).ph = s.ph := rfl
@[simp] theorem latch_cnt (w : Word) (s : State) : (latch w s).cnt = s.cnt := rfl
@[simp] theorem latch_initDone (w : Word) (s : State) : (latch w s).initDone = s.initDone := rfl
@[simp] theorem latch_err (w : Word) (s : State) : (latch w s).err = s.err := rfl
@[simp] theorem latch_trace (w : Word) (s : State) : (latch w s).trace = s.trace := rfl
@[simp] theorem latch_host (w : Word) (s : State) : (latch w s).host = s.host := rfl
@[simp] theorem latch_edgeNo (w : Word) (s : State) : (latch w s).edgeNo = s.edgeNo := rfl

/-! ### `setErr` -/

@[simp] theorem setErr_cfg (s : State) : (setErr s).cfg = s.cfg := rfl
@[simp] theorem setErr_oe (s : State) : (setErr s).oe = s.oe := rfl
@[simp] theorem setErr_rs (s : State) : (setErr s).rs = s.rs := rfl
@[simp] theorem setErr_e (s : State) : (setErr s).e = s.e := rfl
@[simp] theorem setErr_d (s : State) : (setErr s).d = s.d := rfl
@[simp] theorem setErr_st (s : State) : (setErr s).st = s.st := rfl
@[simp] theorem setErr_prog (s : State) : (setErr s).prog = s.prog := rfl
@[simp] theorem setErr_pidx (s : State) : (setErr s).pidx = s.pidx := rfl
@[simp] theorem setErr_opData (s : State) : (setErr s).opData = s.opData := rfl
@[simp] theorem setErr_opM (s : State) : (setErr s).opM = s.opM := rfl
@[simp] theorem setErr_opLine (s : State) : (setErr s).opLine = s.opLine := rfl
@[simp] theorem setErr_opCount (s : State) : (setErr s).opCount = s.opCount := rfl
@[simp] theorem setErr_curByte (s : State) : (setErr s).curByte = s.curByte := rfl
@[simp] theorem setErr_half (s : State) : (setErr s).half = s.half := rfl
@[simp] theorem setErr_ph (s : State) : (setErr s).ph = s.ph := rfl
@[simp] theorem setErr_cnt (s : State) : (setErr s).cnt = s.cnt := rfl
@[simp] theorem setErr_initDone (s : State) : (setErr s).initDone = s.initDone := rfl
@[simp] theorem setErr_err (s : State) : (setErr s).err = true := rfl
@[simp] theorem setErr_trace (s : State) : (setErr s).trace = s.trace := rfl
@[simp] theorem setErr_host (s : State) : (setErr s).host = s.host := rfl
@[simp] theorem setErr_edgeNo (s : State) : (setErr s).edgeNo = s.edgeNo := rfl

/-! ### `endFlags` -/

@[simp] theorem endFlags_cfg (s : State) : (endFlags s).cfg = s.cfg := rfl
@[simp] theorem endFlags_oe (s : State) : (endFlags s).oe = s.oe := rfl
@[simp] theorem endFlags_rs (s : State) : (endFlags s).rs = s.rs := rfl
@[simp] theorem endFlags_e (s : State) : (endFlags s).e = s.e := rfl
@[simp] theorem endFlags_d (s : State) : (endFlags s).d = s.d := rfl
@[simp] theorem endFlags_st (s : State) : (endFlags s).st = s.st := rfl
@[simp] theorem endFlags_prog (s : State) : (endFlags s).prog = s.prog := rfl
@[simp] theorem endFlags_pidx (s : State) : (endFlags s).pidx = s.pidx := rfl
@[simp] theorem endFlags_opData (s : State) : (endFlags s).opData = s.opData := rfl
@[simp] theorem endFlags_opM (s : State) : (endFlags s).opM = s.opM := rfl
@[simp] theorem endFlags_opLine (s : State) : (endFlags s).opLine = s.opLine := rfl
@[simp] theorem endFlags_opCount (s : State) : (endFlags s).opCount = s.opCount := rfl
@[simp] theorem endFlags_curByte (s : State) : (endFlags s).curByte = s.curByte := rfl
@[simp] theorem endFlags_half (s : State) : (endFlags s).half = s.half := rfl
@[simp] theorem endFlags_ph (s : State) : (endFlags s).ph = s.ph := rfl
@[simp] theorem endFlags_cnt (s : State) : (endFlags s).cnt = s.cnt := rfl
@[simp] theorem endFlags_initDone (s : State) : (endFlags s).initDone = (s.initDone || decide (s.prog = .init)) := rfl
@[simp] theorem endFlags_err (s : State) : (endFlags s).err = s.err := rfl
@[simp] theorem endFlags_trace (s : State) : (endFlags s).trace = s.trace := rfl
@[simp] theorem endFlags_host (s : State) : (endFlags s).host = s.host := rfl
@[simp] theorem endFlags_edgeNo (s : State) : (endFlags s).edgeNo = s.edgeNo := rfl

/-! ### `enterCfg` -/

@[simp] theorem enterCfg_cfg (s : State) : (enterCfg s).cfg = s.cfg := rfl
@[simp] theorem enterCfg_oe (s : State) : (enterCfg s).oe = true := rfl
@[simp] theorem enterCfg_rs (s : State) : (enterCfg s).rs = s.rs := rfl
@[simp] theorem enterCfg_e (s : State) : (enterCfg s).e = s.e := rfl
@[simp] theorem enterCfg_d (s : State) : (enterCfg s).d = s.d := rfl
@[simp] theorem enterCfg_st (s : State) : (enterCfg s).st = s.st := rfl
@[simp] theorem enterCfg_prog (s : State) : (enterCfg s).prog = s.prog := rfl
@[simp] theorem enterCfg_pidx (s : State) : (enterCfg s).pidx = s.pidx := rfl
@[simp] theorem enterCfg_opData (s : State) : (enterCfg s).opData = s.opData := rfl
@[simp] theorem enterCfg_opM (s : State) : (enterCfg s).opM = s.opM := rfl
@[simp] theorem enterCfg_opLine (s : State) : (enterCfg s).opLine = s.opLine := rfl
@[simp] theorem enterCfg_opCount (s : State) : (enterCfg s).opCount = s.opCount := rfl
@[simp] theorem enterCfg_curByte (s : State) : (enterCfg s).curByte = s.curByte := rfl
@[simp] theorem enterCfg_half (s : State) : (enterCfg s).half = s.half := rfl
@[simp] theorem enterCfg_ph (s : State) : (enterCfg s).ph = s.ph := rfl
@[simp] theorem enterCfg_cnt (s : State) : (enterCfg s).cnt = s.cnt := rfl
@[simp] theorem enterCfg_initDone (s : State) : (enterCfg s).initDone = s.initDone := rfl
@[simp] theorem enterCfg_err (s : State) : (enterCfg s).err = s.err := rfl
@[simp] theorem enterCfg_trace (s : State) : (enterCfg s).trace = s.trace ++ cfgEvents := rfl
@[simp] theorem enterCfg_host (s : State) : (enterCfg s).host = s.host := rfl
@[simp] theorem enterCfg_edgeNo (s : State) : (enterCfg s).edgeNo = s.edgeNo := rfl

/-! ### `enterX` -/

@[simp] theorem enterX_cfg (b : Byte) (m : Bool) (s : State) : (enterX b m s).cfg = s.cfg := rfl
@[simp] theorem enterX_oe (b : Byte) (m : Bool) (s : State) : (enterX b m s).oe = s.oe := rfl
@[simp] theorem enterX_rs (b : Byte) (m : Bool) (s : State) : (enterX b m s).rs = m := rfl
@[simp] theorem enterX_e (b : Byte) (m : Bool) (s : State) : (enterX b m s).e = s.e := rfl
@[simp] theorem enterX_d (b : Byte) (m : Bool) (s : State) : (enterX b m s).d = hiNibble b := rfl
@[simp] theorem enterX_st (b : Byte) (m : Bool) (s : State) : (enterX b m s).st = .nib := rfl
@[simp] theorem enterX_prog (b : Byte) (m : Bool) (s : State) : (enterX b m s).prog = s.prog := rfl
@[simp] theorem enterX_pidx (b : Byte) (m : Bool) (s : State) : (enterX b m s).pidx = s.pidx := rfl
@[simp] theorem enterX_opData (b : Byte) (m : Bool) (s : State) : (enterX b m s).opData = s.opData := rfl
@[simp] theorem enterX_opM (b : Byte) (m : Bool) (s : State) : (enterX b m s).opM = s.opM := rfl
@[simp] theorem enterX_opLine (b : Byte) (m : Bool) (s : State) : (enterX b m s).opLine = s.opLine := rfl
@[simp] theorem enterX_opCount (b : Byte) (m : Bool) (s : State) : (enterX b m s).opCount = s.opCount := rfl
@[simp] theorem enterX_curByte (b : Byte) (m : Bool) (s : State) : (enterX b m s).curByte = b := rfl
@[simp] theorem enterX_half (b : Byte) (m : Bool) (s : State) : (enterX b m s).half = .hi := rfl
@[simp] theorem enterX_ph (b : Byte) (m : Bool) (s : State) : (enterX b m s).ph = .pre := rfl
@[simp] theorem enterX_cnt (b : Byte) (m : Bool) (s : State) : (enterX b m s).cnt = s.cfg.nSettle := rfl
@[simp] theorem enterX_initDone (b : Byte) (m : Bool) (s : State) : (enterX b m s).initDone = s.initDone := rfl
@[simp] theorem enterX_err (b : Byte) (m : Bool) (s : State) : (enterX b m s).err = s.err := rfl
@[simp] theorem enterX_trace (b : Byte) (m : Bool) (s : State) : (enterX b m s).trace = s.trace ++ ([.set .rs m] ++ dataEvents (hiNibble b) ++ [.sleep s.cfg.tSettle]) := rfl
@[simp] theorem enterX_host (b : Byte) (m : Bool) (s : State) : (enterX b m s).host = s.host := rfl
@[simp] theorem enterX_edgeNo (b : Byte) (m : Bool) (s : State) : (enterX b m s).edgeNo = s.edgeNo := rfl

/-! ### `enterW` -/

@[simp] theorem enterW_cfg (n : Nat) (t : Ratio) (s : State) : (enterW n t s).cfg = s.cfg := rfl
@[simp] theorem enterW_oe (n : Nat) (t : Ratio) (s : State) : (enterW n t s).oe = s.oe := rfl
@[simp] theorem enterW_rs (n : Nat) (t : Ratio) (s : State) : (enterW n t s).rs = s.rs := rfl
@[simp] theorem enterW_e (n : Nat) (t : Ratio) (s : State) : (enterW n t s).e = s.e := rfl
@[simp] theorem enterW_d (n : Nat) (t : Ratio) (s : State) : (enterW n t s).d = s.d := rfl
@[simp] theorem enterW_st (n : Nat) (t : Ratio) (s : State) : (enterW n t s).st = .wait := rfl
@[simp] theorem enterW_prog (n : Nat) (t : Ratio) (s : State) : (enterW n t s).prog = s.prog := rfl
@[simp] theorem enterW_pidx (n : Nat) (t : Ratio) (s : State) : (enterW n t s).pidx = s.pidx := rfl
@[simp] theorem enterW_opData (n : Nat) (t : Ratio) (s : State) : (enterW n t s).opData = s.opData := rfl
@[simp] theorem enterW_opM (n : Nat) (t : Ratio) (s : State) : (enterW n t s).opM = s.opM := rfl
@[simp] theorem enterW_opLine (n : Nat) (t : Ratio) (s : State) : (enterW n t s).opLine = s.opLine := rfl
@[simp] theorem enterW_opCount (n : Nat) (t : Ratio) (s : State) : (enterW n t s).opCount = s.opCount := rfl
@[simp] theorem enterW_curByte (n : Nat) (t : Ratio) (s : State) : (enterW n t s).curByte = s.curByte := rfl
@[simp] theorem enterW_half (n : Nat) (t : Ratio) (s : State) : (enterW n t s).half = s.half := rfl
@[simp] theorem enterW_ph (n : Nat) (t : Ratio) (s : State) : (enterW n t s).ph = s.ph := rfl
@[simp] theorem enterW_cnt (n : Nat) (t : Ratio) (s : State) : (enterW n t s).cnt = n := rfl
@[simp] theorem enterW_initDone (n : Nat) (t : Ratio) (s : State) : (enterW n t s).initDone = s.initDone := rfl
@[simp] theorem enterW_err (n : Nat) (t : Ratio) (s : State) : (enterW n t s).err = s.err := rfl
@[simp] theorem enterW_trace (n : Nat) (t : Ratio) (s : State) : (enterW n t s).trace = s.trace ++ [.sleep t] := rfl
@[simp] theorem enterW_host (n : Nat) (t : Ratio) (s : State) : (enterW n t s).host = s.host := rfl
@[simp] theorem enterW_edgeNo (n : Nat) (t : Ratio) (s : State) : (enterW n t s).edgeNo = s.edgeNo := rfl

/-! ### `enterEnd` -/

@[simp] theorem enterEnd_cfg (s : State) : (enterEnd s).cfg = s.cfg := rfl
@[simp] theorem enterEnd_oe (s : State) : (enterEnd s).oe = s.oe := rfl
@[simp] theorem enterEnd_rs (s : State) : (enterEnd s).rs = s.rs := rfl
@[simp] theorem enterEnd_e (s : State) : (enterEnd s).e = s.e := rfl
@[simp] theorem enterEnd_d (s : State) : (enterEnd s).d = s.d := rfl
@[simp] theorem enterEnd_st (s : State) : (enterEnd s).st = .idle := rfl
@[simp] theorem enterEnd_prog (s : State) : (enterEnd s).prog = s.prog := rfl
@[simp] theorem enterEnd_pidx (s : State) : (enterEnd s).pidx = s.pidx := rfl
@[simp] theorem enterEnd_opData (s : State) : (enterEnd s).opData = s.opData := rfl
@[simp] theorem enterEnd_opM (s : State) : (enterEnd s).opM = s.opM := rfl
@[simp] theorem enterEnd_opLine (s : State) : (enterEnd s).opLine = s.opLine := rfl
@[simp] theorem enterEnd_opCount (s : State) : (enterEnd s).opCount = s.opCount := rfl
@[simp] theorem enterEnd_curByte (s : State) : (enterEnd s).curByte = s.curByte := rfl
@[simp] theorem enterEnd_half (s : State) : (enterEnd s).half = s.half := rfl
@[simp] theorem enterEnd_ph (s : State) : (enterEnd s).ph = s.ph := rfl
@[simp] theorem enterEnd_cnt (s : State) : (enterEnd s).cnt = s.cnt := rfl
@[simp] theorem enterEnd_initDone (s : State) : (enterEnd s).initDone = (s.initDone || decide (s.prog = .init)) := rfl
@[simp] theorem enterEnd_err (s : State) : (enterEnd s).err = s.err := rfl
@[simp] theorem enterEnd_trace (s : State) : (enterEnd s).trace = s.trace := rfl
@[simp] theorem enterEnd_host (s : State) : (enterEnd s).host = s.host := rfl
@[simp] theorem enterEnd_edgeNo (s : State) : (enterEnd s).edgeNo = s.edgeNo := rfl

/-! ### `nextIdx` -/

@[simp] theorem nextIdx_cfg (s : State) : (nextIdx s).cfg = s.cfg := rfl
@[simp] theorem nextIdx_oe (s : State) : (nextIdx s).oe = s.oe := rfl
@[simp] theorem nextIdx_rs (s : State) : (nextIdx s).rs = s.rs := rfl
@[simp] theorem nextIdx_e (s : State) : (nextIdx s).e = s.e := rfl
@[simp] theorem nextIdx_d (s : State) : (nextIdx s).d = s.d := rfl
@[simp] theorem nextIdx_st (s : State) : (nextIdx s).st = s.st := rfl
@[simp] theorem nextIdx_prog (s : State) : (nextIdx s).prog = s.prog := rfl
@[simp] theorem nextIdx_pidx (s : State) : (nextIdx s).pidx = s.pidx + 1#4 := rfl
@[simp] theorem nextIdx_opData (s : State) : (nextIdx s).opData = s.opData := rfl
@[simp] theorem nextIdx_opM (s : State) : (nextIdx s).opM = s.opM := rfl
@[simp] theorem nextIdx_opLine (s : State) : (nextIdx s).opLine = s.opLine := rfl
@[simp] theorem nextIdx_opCount (s : State) : (nextIdx s).opCount = s.opCount := rfl
@[simp] theorem nextIdx_curByte (s : State) : (nextIdx s).curByte = s.curByte := rfl
@[simp] theorem nextIdx_half (s : State) : (nextIdx s).half = s.half := rfl
@[simp] theorem nextIdx_ph (s : State) : (nextIdx s).ph = s.ph := rfl
@[simp] theorem nextIdx_cnt (s : State) : (nextIdx s).cnt = s.cnt := rfl
@[simp] theorem nextIdx_initDone (s : State) : (nextIdx s).initDone = s.initDone := rfl
@[simp] theorem nextIdx_err (s : State) : (nextIdx s).err = s.err := rfl
@[simp] theorem nextIdx_trace (s : State) : (nextIdx s).trace = s.trace := rfl
@[simp] theorem nextIdx_host (s : State) : (nextIdx s).host = s.host := rfl
@[simp] theorem nextIdx_edgeNo (s : State) : (nextIdx s).edgeNo = s.edgeNo := rfl

/-! ### `raiseEnable` -/

@[simp] theorem raiseEnable_cfg (s : State) : (raiseEnable s).cfg = s.cfg := rfl
@[simp] theorem raiseEnable_oe (s : State) : (raiseEnable s).oe = s.oe := rfl
@[simp] theorem raiseEnable_rs (s : State) : (raiseEnable s).rs = s.rs := rfl
@[simp] theorem raiseEnable_e (s : State) : (raiseEnable s).e = true := rfl
@[simp] theorem raiseEnable_d (s : State) : (raiseEnable s).d = s.d := rfl
@[simp] theorem raiseEnable_st (s : State) : (raiseEnable s).st = s.st := rfl
@[simp] theorem raiseEnable_prog (s : State) : (raiseEnable s).prog = s.prog := rfl
@[simp] theorem raiseEnable_pidx (s : State) : (raiseEnable s).pidx = s.pidx := rfl
@[simp] theorem raiseEnable_opData (s : State) : (raiseEnable s).opData = s.opData := rfl
@[simp] theorem raiseEnable_opM (s : State) : (raiseEnable s).opM = s.opM := rfl
@[simp] theorem raiseEnable_opLine (s : State) : (raiseEnable s).opLine = s.opLine := rfl
@[simp] theorem raiseEnable_opCount (s : State) : (raiseEnable s).opCount = s.opCount := rfl
@[simp] theorem raiseEnable_curByte (s : State) : (raiseEnable s).curByte = s.curByte := rfl
@[simp] theorem raiseEnable_half (s : State) : (raiseEnable s).half = s.half := rfl
@[simp] theorem raiseEnable_ph (s : State) : (raiseEnable s).ph = .pulse := rfl
@[simp] theorem raiseEnable_cnt (s : State) : (raiseEnable s).cnt = s.cfg.nPulse := rfl
@[simp] theorem raiseEnable_initDone (s : State) : (raiseEnable s).initDone = s.initDone := rfl
@[simp] theorem raiseEnable_err (s : State) : (raiseEnable s).err = s.err := rfl
@[simp] theorem raiseEnable_trace (s : State) : (raiseEnable s).trace = s.trace ++ [.set .e true, .sleep s.cfg.tPulse] := rfl
@[simp] theorem raiseEnable_host (s : State) : (raiseEnable s).host = s.host := rfl
@[simp] theorem raiseEnable_edgeNo (s : State) : (raiseEnable s).edgeNo = s.edgeNo := rfl

/-! ### `lowerEnable` -/

@[simp] theorem lowerEnable_cfg (s : State) : (lowerEnable s).cfg = s.cfg := rfl
@[simp] theorem lowerEnable_oe (s : State) : (lowerEnable s).oe = s.oe := rfl
@[simp] theorem lowerEnable_rs (s : State) : (lowerEnable s).rs = s.rs := rfl
@[simp] theorem lowerEnable_e (s : State) : (lowerEnable s).e = false := rfl
@[simp] theorem lowerEnable_d (s : State) : (lowerEnable s).d = s.d := rfl
@[simp] theorem lowerEnable_st (s : State) : (lowerEnable s).st = s.st := rfl
@[simp] theorem lowerEnable_prog (s : State) : (lowerEnable s).prog = s.prog := rfl
@[simp] theorem lowerEnable_pidx (s : State) : (lowerEnable s).pidx = s.pidx := rfl
@[simp] theorem lowerEnable_opData (s : State) : (lowerEnable s).opData = s.opData := rfl
@[simp] theorem lowerEnable_opM (s : State) : (lowerEnable s).opM = s.opM := rfl
@[simp] theorem lowerEnable_opLine (s : State) : (lowerEnable s).opLine = s.opLine := rfl
@[simp] theorem lowerEnable_opCount (s : State) : (lowerEnable s).opCount = s.opCount := rfl
@[simp] theorem lowerEnable_curByte (s : State) : (lowerEnable s).curByte = s.curByte := rfl
@[simp] theorem lowerEnable_half (s : State) : (lowerEnable s).half = s.half := rfl
@[simp] theorem lowerEnable_ph (s : State) : (lowerEnable s).ph = .post := rfl
@[simp] theorem lowerEnable_cnt (s : State) : (lowerEnable s).cnt = s.cfg.nSettle := rfl
@[simp] theorem lowerEnable_initDone (s : State) : (lowerEnable s).initDone = s.initDone := rfl
@[simp] theorem lowerEnable_err (s : State) : (lowerEnable s).err = s.err := rfl
@[simp] theorem lowerEnable_trace (s : State) : (lowerEnable s).trace = s.trace ++ [.set .e false, .sleep s.cfg.tSettle] := rfl
@[simp] theorem lowerEnable_host (s : State) : (lowerEnable s).host = s.host := rfl
@[simp] theorem lowerEnable_edgeNo (s : State) : (lowerEnable s).edgeNo = s.edgeNo := rfl

/-! ### `lowNibble` -/

@[simp] theorem lowNibble_cfg (s : State) : (lowNibble s).cfg = s.cfg := rfl
@[simp] theorem lowNibble_oe (s : State) : (lowNibble s).oe = s.oe := rfl
@[simp] theorem lowNibble_rs (s : State) : (lowNibble s).rs = s.rs := rfl
@[simp] theorem lowNibble_e (s : State) : (lowNibble s).e = s.e := rfl
@[simp] theorem lowNibble_d (s : State) : (lowNibble s).d = loNibble s.curByte := rfl
@[simp] theorem lowNibble_st (s : State) : (lowNibble s).st = s.st := rfl
@[simp] theorem lowNibble_prog (s : State) : (lowNibble s).prog = s.prog := rfl
@[simp] theorem lowNibble_pidx (s : State) : (lowNibble s).pidx = s.pidx := rfl
@[simp] theorem lowNibble_opData (s : State) : (lowNibble s).opData = s.opData := rfl
@[simp] theorem lowNibble_opM (s : State) : (lowNibble s).opM = s.opM := rfl
@[simp] theorem lowNibble_opLine (s : State) : (lowNibble s).opLine = s.opLine := rfl
@[simp] theorem lowNibble_opCount (s : State) : (lowNibble s).opCount = s.opCount := rfl
@[simp] theorem lowNibble_curByte (s : State) : (lowNibble s).curByte = s.curByte := rfl
@[simp] theorem lowNibble_half (s : State) : (lowNibble s).half = .lo := rfl
@[simp] theorem lowNibble_ph (s : State) : (lowNibble s).ph = .pre := rfl
@[simp] theorem lowNibble_cnt (s : State) : (lowNibble s).cnt = s.cfg.nSettle := rfl
@[simp] theorem lowNibble_initDone (s : State) : (lowNibble s).initDone = s.initDone := rfl
@[simp] theorem lowNibble_err (s : State) : (lowNibble s).err = s.err := rfl
@[simp] theorem lowNibble_trace (s : State) : (lowNibble s).trace = s.trace ++ (dataEvents (loNibble s.curByte) ++ [.sleep s.cfg.tSettle]) := rfl
@[simp] theorem lowNibble_host (s : State) : (lowNibble s).host = s.host := rfl
@[simp] theorem lowNibble_edgeNo (s : State) : (lowNibble s).edgeNo = s.edgeNo := rfl

/-! ### `countDown` -/

@[simp] theorem countDown_cfg (s : State) : (countDown s).cfg = s.cfg := rfl
@[simp] theorem countDown_oe (s : State) : (countDown s).oe = s.oe := rfl
@[simp] theorem countDown_rs (s : State) : (countDown s).rs = s.rs := rfl
@[simp] theorem countDown_e (s : State) : (countDown s).e = s.e := rfl
@[simp] theorem countDown_d (s : State) : (countDown s).d = s.d := rfl
@[simp] theorem countDown_st (s : State) : (countDown s).st = s.st := rfl
@[simp] theorem countDown_prog (s : State) : (countDown s).prog = s.prog := rfl
@[simp] theorem countDown_pidx (s : State) : (countDown s).pidx = s.pidx := rfl
@[simp] theorem countDown_opData (s : State) : (countDown s).opData = s.opData := rfl
@[simp] theorem countDown_opM (s : State) : (countDown s).opM = s.opM := rfl
@[simp] theorem countDown_opLine (s : State) : (countDown s).opLine = s.opLine := rfl
@[simp] theorem countDown_opCount (s : State) : (countDown s).opCount = s.opCount := rfl
@[simp] theorem countDown_curByte (s : State) : (countDown s).curByte = s.curByte := rfl
@[simp] theorem countDown_half (s : State) : (countDown s).half = s.half := rfl
@[simp] theorem countDown_ph (s : State) : (countDown s).ph = s.ph := rfl
@[simp] theorem countDown_cnt (s : State) : (countDown s).cnt = s.cnt - 1 := rfl
@[simp] theorem countDown_initDone (s : State) : (countDown s).initDone = s.initDone := rfl
@[simp] theorem countDown_err (s : State) : (countDown s).err = s.err := rfl
@[simp] theorem countDown_trace (s : State) : (countDown s).trace = s.trace := rfl
@[simp] theorem countDown_host (s : State) : (countDown s).host = s.host := rfl
@[simp] theorem countDown_edgeNo (s : State) : (countDown s).edgeNo = s.edgeNo := rfl

/-! ### `resetEdge` -/

@[simp] theorem resetEdge_cfg (s : State) : (resetEdge s).cfg = s.cfg := rfl
@[simp] theorem resetEdge_oe (s : State) : (resetEdge s).oe = false := rfl
@[simp] theorem resetEdge_rs (s : State) : (resetEdge s).rs = false := rfl
@[simp] theorem resetEdge_e (s : State) : (resetEdge s).e = false := rfl
@[simp] theorem resetEdge_d (s : State) : (resetEdge s).d = 0#4 := rfl
@[simp] theorem resetEdge_st (s : State) : (resetEdge s).st = .boot := rfl
@[simp] theorem resetEdge_prog (s : State) : (resetEdge s).prog = .init := rfl
@[simp] theorem resetEdge_pidx (s : State) : (resetEdge s).pidx = 0#4 := rfl
@[simp] theorem resetEdge_opData (s : State) : (resetEdge s).opData = 0#8 := rfl
@[simp] theorem resetEdge_opM (s : State) : (resetEdge s).opM = false := rfl
@[simp] theorem resetEdge_opLine (s : State) : (resetEdge s).opLine = 0#2 := rfl
@[simp] theorem resetEdge_opCount (s : State) : (resetEdge s).opCount = 0#12 := rfl
@[simp] theorem resetEdge_curByte (s : State) : (resetEdge s).curByte = 0#8 := rfl
@[simp] theorem resetEdge_half (s : State) : (resetEdge s).half = .hi := rfl
@[simp] theorem resetEdge_ph (s : State) : (resetEdge s).ph = .pre := rfl
@[simp] theorem resetEdge_cnt (s : State) : (resetEdge s).cnt = 0 := rfl
@[simp] theorem resetEdge_initDone (s : State) : (resetEdge s).initDone = false := rfl
@[simp] theorem resetEdge_err (s : State) : (resetEdge s).err = false := rfl
@[simp] theorem resetEdge_trace (s : State) : (resetEdge s).trace = [] := rfl
@[simp] theorem resetEdge_host (s : State) : (resetEdge s).host = s.host := rfl
@[simp] theorem resetEdge_edgeNo (s : State) : (resetEdge s).edgeNo = s.edgeNo := rfl

/-! ### `afterEdge` -/

@[simp] theorem afterEdge_cfg (acc : Bool) (s : State) : (afterEdge acc s).cfg = s.cfg := rfl
@[simp] theorem afterEdge_oe (acc : Bool) (s : State) : (afterEdge acc s).oe = s.oe := rfl
@[simp] theorem afterEdge_rs (acc : Bool) (s : State) : (afterEdge acc s).rs = s.rs := rfl
@[simp] theorem afterEdge_e (acc : Bool) (s : State) : (afterEdge acc s).e = s.e := rfl
@[simp] theorem afterEdge_d (acc : Bool) (s : State) : (afterEdge acc s).d = s.d := rfl
@[simp] theorem afterEdge_st (acc : Bool) (s : State) : (afterEdge acc s).st = s.st := rfl
@[simp] theorem afterEdge_prog (acc : Bool) (s : State) : (afterEdge acc s).prog = s.prog := rfl
@[simp] theorem afterEdge_pidx (acc : Bool) (s : State) : (afterEdge acc s).pidx = s.pidx := rfl
@[simp] theorem afterEdge_opData (acc : Bool) (s : State) : (afterEdge acc s).opData = s.opData := rfl
@[simp] theorem afterEdge_opM (acc : Bool) (s : State) : (afterEdge acc s).opM = s.opM := rfl
@[simp] theorem afterEdge_opLine (acc : Bool) (s : State) : (afterEdge acc s).opLine = s.opLine := rfl
@[simp] theorem afterEdge_opCount (acc : Bool) (s : State) : (afterEdge acc s).opCount = s.opCount := rfl
@[simp] theorem afterEdge_curByte (acc : Bool) (s : State) : (afterEdge acc s).curByte = s.curByte := rfl
@[simp] theorem afterEdge_half (acc : Bool) (s : State) : (afterEdge acc s).half = s.half := rfl
@[simp] theorem afterEdge_ph (acc : Bool) (s : State) : (afterEdge acc s).ph = s.ph := rfl
@[simp] theorem afterEdge_cnt (acc : Bool) (s : State) : (afterEdge acc s).cnt = s.cnt := rfl
@[simp] theorem afterEdge_initDone (acc : Bool) (s : State) : (afterEdge acc s).initDone = s.initDone := rfl
@[simp] theorem afterEdge_err (acc : Bool) (s : State) : (afterEdge acc s).err = s.err := rfl
@[simp] theorem afterEdge_trace (acc : Bool) (s : State) : (afterEdge acc s).trace = s.trace := rfl
@[simp] theorem afterEdge_host (acc : Bool) (s : State) : (afterEdge acc s).host = hostAfter acc s.host := rfl
@[simp] theorem afterEdge_edgeNo (acc : Bool) (s : State) : (afterEdge acc s).edgeNo = s.edgeNo + 1 := rfl

end Sys2Proof.Machine
end

