-- ==== Sys2Proof/Laws/Sequencer.lean ====
section
/-! SUPPORT. What entering a micro-operation can do (41_byte_transfer.md R131), said once: `enterFrom_entered` and
`enterFrom_inv`; later proofs cite them instead of unfolding the sequencer. -/

namespace Sys2Proof.Machine

open Safety

/-! ### Micro-programs -/

/-- A micro-program depends on nothing but the program's name, the operand latches and the configuration. -/
theorem microProg_congr {s t : State} (hp : s.prog = t.prog) (hc : s.cfg = t.cfg) (hd : s.opData = t.opData)
    (hm : s.opM = t.opM) (hl : s.opLine = t.opLine) (hk : s.opCount = t.opCount) : microProg s = microProg t := by
  simp [microProg, hp, hc, hd, hm, hl, hk]

@[simp] theorem microProg_nextIdx (s : State) : microProg (nextIdx s) = microProg s :=
  microProg_congr rfl rfl rfl rfl rfl rfl

@[simp] theorem microProg_enterCfg (s : State) : microProg (enterCfg s) = microProg s :=
  microProg_congr rfl rfl rfl rfl rfl rfl

@[simp] theorem microProg_enterX (b : Byte) (m : Bool) (s : State) : microProg (enterX b m s) = microProg s :=
  microProg_congr rfl rfl rfl rfl rfl rfl

@[simp] theorem microProg_enterW (n : Nat) (t : Ratio) (s : State) : microProg (enterW n t s) = microProg s :=
  microProg_congr rfl rfl rfl rfl rfl rfl

@[simp] theorem microProg_raiseEnable (s : State) : microProg (raiseEnable s) = microProg s :=
  microProg_congr rfl rfl rfl rfl rfl rfl

@[simp] theorem microProg_lowerEnable (s : State) : microProg (lowerEnable s) = microProg s :=
  microProg_congr rfl rfl rfl rfl rfl rfl

@[simp] theorem microProg_lowNibble (s : State) : microProg (lowNibble s) = microProg s :=
  microProg_congr rfl rfl rfl rfl rfl rfl

@[simp] theorem microProg_countDown (s : State) : microProg (countDown s) = microProg s :=
  microProg_congr rfl rfl rfl rfl rfl rfl

/-- The list ends with its only `END` (30_encoding.md R80). -/
def EndsOnce : List MicroOp → Prop
  | [] => False
  | .fin :: us => us = []
  | .cfg :: us => EndsOnce us
  | .x _ _ :: us => EndsOnce us
  | .w _ _ :: us => EndsOnce us

/-- `CFG` stands nowhere in the list. -/
def NoCfg (us : List MicroOp) : Prop := MicroOp.cfg ∉ us

theorem microProg_endsOnce (s : State) : EndsOnce (microProg s) := by
  unfold microProg
  cases s.prog <;> simp [EndsOnce]

theorem endsOnce_drop {us : List MicroOp} (h : EndsOnce us) :
    ∀ i, i < us.length → EndsOnce (us.drop i) := by
  induction us with
  | nil => simp [EndsOnce] at h
  | cons u us ih =>
    intro i hi
    cases i with
    | zero => simpa using h
    | succ i =>
      have hi' : i < us.length := by simpa using hi
      cases u with
      | fin => simp only [EndsOnce] at h; subst h; simp at hi'
      | cfg => simpa using ih h i hi'
      | x _ _ => simpa using ih h i hi'
      | w _ _ => simpa using ih h i hi'

/-- After a micro-operation that takes time the program goes on. -/
theorem endsOnce_after {s : State} {i : Nat} {u : MicroOp} (h : (microProg s)[i]? = some u) (hu : u ≠ .fin) :
    EndsOnce ((microProg s).drop (i + 1)) := by
  obtain ⟨hi, he⟩ := List.getElem?_eq_some_iff.mp h
  have hd := endsOnce_drop (microProg_endsOnce s) i hi
  rw [List.drop_eq_getElem_cons hi, he] at hd
  cases u <;> simp_all [EndsOnce]

/-- No micro-program is longer than `P_INIT` (10_state.md R35). -/
theorem microProg_length (s : State) : (microProg s).length ≤ 9 := by
  unfold microProg
  cases s.prog <;> simp

/-- `CFG` stands only at the start of `P_INIT`. -/
theorem microProg_noCfg_tail (s : State) (i : Nat) : NoCfg ((microProg s).drop (i + 1)) := by
  have tail : MicroOp.cfg ∉ (microProg s).tail := by
    unfold microProg
    cases s.prog <;> simp
  have split : (microProg s).drop (i + 1) = (microProg s).tail.drop i := by
    rw [← List.drop_one, List.drop_drop, Nat.add_comm]
  exact fun h => tail (List.mem_of_mem_drop (split ▸ h))

/-- `CFG` belongs to the bring-up program alone. -/
theorem microProg_noCfg {s : State} (h : s.prog ≠ .init) : NoCfg (microProg s) := by
  unfold NoCfg microProg
  cases hp : s.prog <;> simp_all

theorem nSettle_le (c : Config) : c.nSettle ≤ c.maxLoad := by simp [Config.maxLoad]
theorem nPulse_le (c : Config) : c.nPulse ≤ c.maxLoad := by simp [Config.maxLoad]

/-- Every wait of a micro-program is within the timer's largest load (45_control.md R206). -/
theorem microProg_wait_le {s : State} {n : Nat} {t : Ratio} (h : MicroOp.w n t ∈ microProg s) :
    n ≤ s.cfg.maxLoad := by
  have hk : s.opCount.toNat ≤ 4095 := by have := s.opCount.isLt; omega
  unfold microProg at h
  cases hp : s.prog <;> rw [hp] at h <;> simp at h
  · obtain ⟨rfl, -⟩ := h; simp [Config.maxLoad]
  · obtain ⟨rfl, -⟩ := h; simp [Config.maxLoad]
  · obtain ⟨rfl, -⟩ := h
    have : s.opCount.toNat * s.cfg.nUnit ≤ 4095 * s.cfg.nUnit := Nat.mul_le_mul_right _ hk
    simp only [Config.maxLoad]; omega

/-! ### Valid configurations -/

theorem valid_nSettle {c : Config} (h : c.valid = true) : 1 ≤ c.nSettle := by
  simp [Config.valid] at h; omega
theorem valid_nPulse {c : Config} (h : c.valid = true) : 1 ≤ c.nPulse := by
  simp [Config.valid] at h; omega
theorem valid_nClear {c : Config} (h : c.valid = true) : 1 ≤ c.nClear := by
  simp [Config.valid] at h; omega
theorem valid_nUnit {c : Config} (h : c.valid = true) : 1 ≤ c.nUnit := by
  simp [Config.valid] at h; omega
theorem valid_fits {c : Config} (h : c.valid = true) : c.maxLoad < 2 ^ c.cntW := by
  simp [Config.valid] at h; omega

/-- The power-up wait takes no cycle exactly when no time is requested, so both levels skip it together
(40_init_sequencer.md R100). -/
theorem valid_powerup {c : Config} (h : c.valid = true) : c.nPowerup = 0 ↔ c.tPowerup.num = 0 := by
  have h1 := valid_nSettle h
  have hd : c.ratiosOk = true := by simp [Config.valid] at h; exact h.1.1.1
  simp [Config.ratiosOk] at hd
  have hf : 0 < c.fClk.num := by
    rcases Nat.eq_zero_or_pos c.fClk.num with h0 | h0
    · exfalso
      have : c.nSettle = 0 := by
        simp only [Config.nSettle, Config.cycles, Ratio.ceilMul, h0, Nat.mul_zero, Nat.zero_add]
        apply Nat.div_eq_of_lt
        have : 0 < c.tSettle.den * c.fClk.den := Nat.mul_pos hd.1 hd.2.2.2.2.2.1
        omega
      omega
    · exact h0
  have hden : 0 < c.tPowerup.den * c.fClk.den := Nat.mul_pos hd.2.2.2.1 hd.2.2.2.2.2.1
  simp only [Config.nPowerup, Config.cycles, Ratio.ceilMul]
  rw [Nat.div_eq_zero_iff]
  constructor
  · rintro (h | h)
    · omega
    · by_contra hn
      have : 0 < c.tPowerup.num * c.fClk.num := Nat.mul_pos (by omega) hf
      omega
  · intro h0; right; rw [h0]; omega

/-- A valid configuration has a DELAY unit that is a positive time, so `T_CLEAR / T_UNIT` and a Typed speed's units are
quotients by a non-zero number (70_reset_and_hazards.md R254). -/
theorem valid_tUnit {c : Config} (h : c.valid = true) : 0 < c.tUnit.num := by
  have h1 := valid_nUnit h
  have hd : c.ratiosOk = true := by simp [Config.valid] at h; exact h.1.1.1
  simp [Config.ratiosOk] at hd
  by_contra h0
  have hn : c.tUnit.num = 0 := by omega
  have hp : 0 < c.tUnit.den * c.fClk.den := Nat.mul_pos hd.2.2.2.2.1 hd.2.2.2.2.2.1
  have : c.nUnit = 0 := by
    simp only [Config.nUnit, Config.cycles, Ratio.ceilMul, hn, Nat.zero_mul, Nat.zero_add]
    exact Nat.div_eq_of_lt (by omega)
  omega

/-! ### Entering -/

/-- What entering a list of micro-operations changes and keeps. -/
structure Entered (us : List MicroOp) (s t : State) : Prop where
  /-- It emits events with no Enable pulse, and the lines are what those events make of them. -/
  emits : ∃ evs, t.trace = s.trace ++ evs ∧ pulses evs = 0 ∧ t.lines = s.lines.applyAll evs
  /-- It ends IDLE, in a wait, or in the first phase of a transfer. -/
  place : t.st = .idle ∨ t.st = .wait ∨ (t.st = .nib ∧ t.half = .hi ∧ t.ph = .pre ∧ t.cnt = s.cfg.nSettle)
  cfg : t.cfg = s.cfg
  prog : t.prog = s.prog
  latches : t.opData = s.opData ∧ t.opM = s.opM ∧ t.opLine = s.opLine ∧ t.opCount = s.opCount
  err : t.err = s.err
  outside : t.host = s.host ∧ t.edgeNo = s.edgeNo
  enable : t.e = s.e
  initDone : t.initDone = (s.initDone || (decide (t.st = .idle) && decide (s.prog = .init)))
  /-- Only a transfer writes RS, the data lines and the nibble datapath. -/
  datapath : t.st ≠ .nib → t.rs = s.rs ∧ t.d = s.d ∧ t.curByte = s.curByte ∧ t.half = s.half ∧ t.ph = s.ph
  oe : s.oe = true → t.oe = true
  oeKept : NoCfg us → t.oe = s.oe

theorem enterFrom_entered {us : List MicroOp} {s t : State} (h : enterFrom us s = .next t) : Entered us s t := by
  induction us generalizing s with
  | nil => simp [enterFrom] at h
  | cons u us ih =>
    cases u with
    | cfg =>
      have r := ih (s := nextIdx (enterCfg s)) (by simpa [enterFrom] using h)
      obtain ⟨evs, h1, h2, h3⟩ := r.emits
      exact
      { r with
        emits := by
          refine ⟨cfgEvents ++ evs, by simpa using h1, by simpa using h2, ?_⟩
          rw [h3, applyAll_append, applyAll_cfgEvents]
          rfl
        oe := fun _ => r.oe rfl
        oeKept := fun hc => absurd (List.mem_cons_self) hc }
    | x b m =>
      simp only [enterFrom, Host.Outcome.next.injEq] at h
      subst h
      constructor
      case emits =>
        refine ⟨[Event.set LcdLine.rs m] ++ dataEvents (hiNibble b) ++ [Event.sleep s.cfg.tSettle], rfl, ?_, ?_⟩
        · simp only [pulses_append, pulses_dataEvents]
          rfl
        · simp [Lines.apply, State.lines]
      all_goals simp
    | w n r =>
      by_cases hn : n = 0
      · simp only [enterFrom, hn, if_true] at h
        have q := ih h
        exact { q with oeKept := fun hc => q.oeKept (fun hm => hc (List.mem_cons_of_mem _ hm)) }
      · simp only [enterFrom, hn, if_false, Host.Outcome.next.injEq] at h
        subst h
        constructor
        case emits => exact ⟨[Event.sleep r], rfl, rfl, by simp [Lines.apply, State.lines]⟩
        all_goals simp
    | fin =>
      simp only [enterFrom, Host.Outcome.next.injEq] at h
      subst h
      constructor
      case emits => exact ⟨[], by simp, rfl, by simp [State.lines]⟩
      all_goals simp

/-- What a state must be for a micro-operation to be entered in it: the premise of `enterFrom_inv`. -/
structure Enterable (us : List MicroOp) (s : State) : Prop where
  valid : s.cfg.valid = true
  enable : s.e = false
  driven : s.oe = true ∨ us.head? = some .cfg
  bringUp : s.initDone = decide (s.prog ≠ .init)
  cnt : s.cnt ≤ s.cfg.maxLoad
  lines : s.lines = Lines.reset.applyAll s.trace
  place : ∃ pre, microProg s = pre ++ us ∧ s.pidx.toNat = pre.length
  ends : EndsOnce us

theorem nextIdx_toNat {s : State} {pre us : List MicroOp} {u : MicroOp} (h : microProg s = pre ++ u :: us)
    (hp : s.pidx.toNat = pre.length) : (nextIdx s).pidx.toNat = (pre ++ [u]).length := by
  have hl := microProg_length s
  rw [h] at hl
  simp only [List.length_append, List.length_cons] at hl
  simp only [nextIdx_pidx, BitVec.toNat_add, hp, List.length_append, List.length_cons, List.length_nil]
  have : (1#4).toNat = 1 := rfl
  omega

/-- Entering the rest of a micro-program always succeeds, keeps the invariant, and leaves as many cycles to go as the
micro-operations take (41_byte_transfer.md R131, R132, R138). -/
theorem enterFrom_inv {us : List MicroOp} {s : State} (h : Enterable us s) :
    ∃ t, enterFrom us s = .next t ∧ EngineInv t ∧ remaining t = opsCycles s.cfg us := by
  induction us generalizing s with
  | nil => exact absurd h.ends (by simp [EndsOnce])
  | cons u us ih =>
    obtain ⟨pre, hmp, hpi⟩ := h.place
    have hlen := microProg_length s
    rw [hmp] at hlen
    simp only [List.length_append, List.length_cons] at hlen
    have hop : (microProg s)[s.pidx.toNat]? = some u := by rw [hmp, hpi]; simp
    have hdrop : (microProg s).drop (s.pidx.toNat + 1) = us := by rw [hmp, hpi]; simp
    cases u with
    | cfg =>
      have := ih (s := nextIdx (enterCfg s))
        { valid := h.valid
          enable := h.enable
          driven := .inl rfl
          bringUp := h.bringUp
          cnt := h.cnt
          lines := by
            have := h.lines
            simp only [State.lines] at this ⊢
            simp [← this]
          place := ⟨pre ++ [.cfg], by simpa using hmp,
            nextIdx_toNat (s := enterCfg s) (us := us) (by simpa using hmp) hpi⟩
          ends := h.ends }
      simpa [enterFrom, opsCycles, opCycles] using this
    | x b m =>
      have hoe : s.oe = true := h.driven.resolve_right (by simp)
      have hs := valid_nSettle h.valid
      have hl : (enterX b m s).lines = Lines.reset.applyAll (enterX b m s).trace := by
        rw [enterX_trace, applyAll_append, ← h.lines]
        simp [Lines.apply, State.lines]
      refine ⟨enterX b m s, rfl, ?_, ?_⟩
      · exact
        { valid := h.valid
          boot := by simp
          idle := by simp
          enable := by simp [h.enable]
          nib := by
            intro _
            refine ⟨hoe, hs, Nat.le_refl _, ?_, rfl⟩
            simpa [currentOp] using hop
          wait := by simp
          bringUp := fun _ => h.bringUp
          pidx := by simp [hpi]; omega
          cnt := nSettle_le _
          lines := hl }
      · simp only [remaining, enterX_st, enterX_cnt, enterX_half, enterX_ph, microProg_enterX, enterX_pidx, hdrop,
          enterX_cfg, opsCycles, opCycles, phasesAfter, Config.transferCycles]
        omega
    | w n r =>
      have hoe : s.oe = true := h.driven.resolve_right (by simp)
      by_cases hn : n = 0
      · have := ih (s := nextIdx s)
          { valid := h.valid
            enable := h.enable
            driven := .inl hoe
            bringUp := h.bringUp
            cnt := h.cnt
            lines := h.lines
            place := ⟨pre ++ [.w n r], by simpa using hmp, nextIdx_toNat (us := us) hmp hpi⟩
            ends := h.ends }
        simpa [enterFrom, hn, opsCycles, opCycles] using this
      · have hl : (enterW n r s).lines = Lines.reset.applyAll (enterW n r s).trace := by
          rw [enterW_trace, applyAll_append, ← h.lines]
          simp [Lines.apply, State.lines]
        refine ⟨enterW n r s, by simp [enterFrom, hn], ?_, ?_⟩
        · exact
          { valid := h.valid
            boot := by simp
            idle := by simp
            enable := by simp [h.enable]
            nib := by simp
            wait := by
              intro _
              refine ⟨hoe, Nat.pos_of_ne_zero hn, n, r, ?_, Nat.le_refl _⟩
              simpa [currentOp] using hop
            bringUp := fun _ => h.bringUp
            pidx := by simp [hpi]; omega
            cnt := microProg_wait_le (s := s) (t := r) (by rw [hmp]; simp)
            lines := hl }
        · simp [remaining, hdrop, opsCycles, opCycles]
    | fin =>
      have hoe : s.oe = true := h.driven.resolve_right (by simp)
      have hus : us = [] := h.ends
      refine ⟨enterEnd s, rfl, ?_, by simp [remaining, hus, opsCycles, opCycles]⟩
      exact
      { valid := h.valid
        boot := by simp
        idle := by
          intro _
          refine ⟨?_, hoe⟩
          have := h.bringUp
          by_cases hp : s.prog = .init <;> simp_all
        enable := by simp [h.enable]
        nib := by simp
        wait := by simp
        bringUp := by simp
        pidx := by simp [hpi]; omega
        cnt := h.cnt
        lines := h.lines }

end Sys2Proof.Machine
end

