-- ==== Sys2Proof/Laws/Edge.lean ====
section
/-! SUPPORT. What accepting a command and one edge can do: `exec_eq_start`, `exec_entered`, `edge_inv`, `edge_cases`. -/

namespace Sys2Proof.Machine

open Safety

theorem progOf_ne_init (i : Instr) : progOf i ≠ .init := by cases i <;> simp [progOf]

/-- A well-formed command latches its operands and starts its micro-program (30_encoding.md R77). -/
theorem exec_eq_start {i : Instr} (h : i.wf = true) (s : State) :
    exec i s = startProg (progOf i) (latch (encode i) s) := by
  cases i <;> try rfl
  simp only [Instr.wf, decide_eq_true_eq] at h
  simp only [exec, execLine, h, and_self, if_true]
  rfl

/-- The state in which a micro-program is started. -/
theorem startProg_place (p : Prog) (s : State) :
    ∃ pre, microProg { s with prog := p, pidx := 0#4 } = pre ++ microProg { s with prog := p, pidx := 0#4 }
      ∧ ({ s with prog := p, pidx := 0#4 } : State).pidx.toNat = pre.length := ⟨[], rfl, rfl⟩

/-- A command that an IDLE engine accepts starts: the invariant holds after it, and it has its whole duration to go
(70_reset_and_hazards.md R270). -/
theorem exec_inv {i : Instr} {s : State} (hw : i.wf = true) (hi : EngineInv s) (hs : s.st = .idle) :
    ∃ t, exec i s = .next t ∧ EngineInv t ∧ remaining t = instrCycles s.cfg i := by
  obtain ⟨t, h1, h2, h3⟩ := enterFrom_inv
    (us := microProg { latch (encode i) s with prog := progOf i, pidx := 0#4 })
    (s := { latch (encode i) s with prog := progOf i, pidx := 0#4 })
    { valid := hi.valid
      enable := by simpa [hs] using hi.enable
      driven := .inl (hi.idle hs).2
      bringUp := by
        simp only [latch_initDone, (hi.idle hs).1]
        simp [progOf_ne_init i]
      cnt := hi.cnt
      lines := hi.lines
      place := startProg_place (progOf i) (latch (encode i) s)
      ends := microProg_endsOnce _ }
  refine ⟨t, by rw [exec_eq_start hw]; exact h1, h2, ?_⟩
  rw [h3]
  cases i <;> simp [progOf, microProg, opsCycles, opCycles, instrCycles]
  omega

/-- The end of a byte or of a wait, in a state that meets the invariant: the rest of the micro-program is entered. -/
theorem nextOp_inv {s : State} {u : MicroOp} (hi : EngineInv s) (hb : s.st = .nib ∨ s.st = .wait)
    (ho : s.oe = true) (he : s.e = false) (hop : currentOp s = some u) (hu : u ≠ .fin) :
    ∃ t, nextOp s = .next t ∧ EngineInv t ∧ remaining t = opsCycles s.cfg ((microProg s).drop (s.pidx.toNat + 1)) := by
  obtain ⟨hlt, hget⟩ := List.getElem?_eq_some_iff.mp hop
  have split : microProg s = (microProg s).take s.pidx.toNat ++ u :: (microProg s).drop (s.pidx.toNat + 1) := by
    rw [← hget, ← List.drop_eq_getElem_cons hlt, List.take_append_drop]
  have hlen : s.pidx.toNat = ((microProg s).take s.pidx.toNat).length := by
    rw [List.length_take]; omega
  have hidx : (nextIdx s).pidx.toNat = s.pidx.toNat + 1 := by
    rw [nextIdx_toNat split hlen, List.length_append, ← hlen]; rfl
  obtain ⟨t, h1, h2, h3⟩ := enterFrom_inv
    (us := (microProg (nextIdx s)).drop (nextIdx s).pidx.toNat) (s := nextIdx s)
    { valid := hi.valid
      enable := he
      driven := .inl ho
      bringUp := hi.bringUp hb
      cnt := hi.cnt
      lines := hi.lines
      place := ⟨(microProg s).take (s.pidx.toNat + 1), by
        rw [hidx, microProg_nextIdx, List.take_append_drop], by rw [hidx, List.length_take]; omega⟩
      ends := by
        rw [hidx, microProg_nextIdx]
        exact endsOnce_after hop hu }
  refine ⟨t, h1, h2, ?_⟩
  rw [h3, hidx, microProg_nextIdx]
  rfl

/-- A cycle within a phase or a wait keeps the invariant. -/
theorem countDown_inv {s : State} (hi : EngineInv s) (hb : s.st = .nib ∨ s.st = .wait) (hc : 1 < s.cnt) :
    EngineInv (countDown s) where
  valid := hi.valid
  boot := by intro h; simp_all
  idle := hi.idle
  enable := hi.enable
  nib := by
    intro h
    obtain ⟨h1, -, h3, h4, h5⟩ := hi.nib h
    exact ⟨h1, by simp; omega, by simp; omega, by simpa [currentOp] using h4, h5⟩
  wait := by
    intro h
    obtain ⟨h1, -, n, t, h3, h4⟩ := hi.wait h
    exact ⟨h1, by simp; omega, n, t, by simpa [currentOp] using h3, by simp; omega⟩
  bringUp := hi.bringUp
  pidx := hi.pidx
  cnt := by have := hi.cnt; simp; omega
  lines := hi.lines

theorem raiseEnable_inv {s : State} (hi : EngineInv s) (hs : s.st = .nib) : EngineInv (raiseEnable s) where
  valid := hi.valid
  boot := by simp [hs]
  idle := by simp [hs]
  enable := by simp [hs]
  nib := by
    intro _
    obtain ⟨h1, -, -, h4, h5⟩ := hi.nib hs
    exact ⟨h1, valid_nPulse hi.valid, Nat.le_refl _, by simpa [currentOp] using h4, h5⟩
  wait := by simp [hs]
  bringUp := hi.bringUp
  pidx := hi.pidx
  cnt := nPulse_le _
  lines := by
    rw [raiseEnable_trace, applyAll_append, ← hi.lines]
    simp [Lines.apply, State.lines]

theorem lowerEnable_inv {s : State} (hi : EngineInv s) (hs : s.st = .nib) : EngineInv (lowerEnable s) where
  valid := hi.valid
  boot := by simp [hs]
  idle := by simp [hs]
  enable := by simp
  nib := by
    intro _
    obtain ⟨h1, -, -, h4, h5⟩ := hi.nib hs
    exact ⟨h1, valid_nSettle hi.valid, Nat.le_refl _, by simpa [currentOp] using h4, h5⟩
  wait := by simp [hs]
  bringUp := hi.bringUp
  pidx := hi.pidx
  cnt := nSettle_le _
  lines := by
    rw [lowerEnable_trace, applyAll_append, ← hi.lines]
    simp [Lines.apply, State.lines]

theorem lowNibble_inv {s : State} (hi : EngineInv s) (hs : s.st = .nib) (hp : s.ph = .post) : EngineInv (lowNibble s) where
  valid := hi.valid
  boot := by simp [hs]
  idle := by simp [hs]
  enable := by simpa [hs, hp] using hi.enable
  nib := by
    intro _
    obtain ⟨h1, -, -, h4, -⟩ := hi.nib hs
    exact ⟨h1, valid_nSettle hi.valid, Nat.le_refl _, by simpa [currentOp] using h4, rfl⟩
  wait := by simp [hs]
  bringUp := hi.bringUp
  pidx := hi.pidx
  cnt := nSettle_le _
  lines := by
    rw [lowNibble_trace, applyAll_append, ← hi.lines]
    simp [Lines.apply, State.lines]

/-- The state after a reset edge meets the invariant, whatever the state before. -/
theorem resetEdge_inv {s : State} (h : s.cfg.valid = true) : EngineInv (resetEdge s) where
  valid := h
  boot := fun _ => rfl
  idle := by simp
  enable := by simp
  nib := by simp
  wait := by simp
  bringUp := by simp
  pidx := by simp
  cnt := by simp
  lines := rfl

/-- The `BOOT` edge starts the bring-up program. -/
theorem bootArm_inv {s : State} (hi : EngineInv s) (hs : s.st = .boot) :
    ∃ t, bootArm s = .next t ∧ EngineInv t ∧ remaining t + 1 = remaining s := by
  have hr := hi.boot hs
  have f1 : s.initDone = false := by rw [hr]; rfl
  have f2 : s.e = false := by rw [hr]; rfl
  obtain ⟨t, h1, h2, h3⟩ := enterFrom_inv
    (us := microProg { s with prog := .init, pidx := 0#4 }) (s := { s with prog := .init, pidx := 0#4 })
    { valid := hi.valid
      enable := f2
      driven := .inr rfl
      bringUp := by simp [f1]
      cnt := hi.cnt
      lines := hi.lines
      place := startProg_place .init s
      ends := microProg_endsOnce _ }
  refine ⟨t, h1, h2, ?_⟩
  rw [h3]
  simp only [remaining, hs]
  rw [Nat.add_comm]
  rfl

/-- One edge without reset, in a state that meets the invariant: there is a next state, it meets the invariant, and a
busy engine is one cycle nearer to IDLE (41_byte_transfer.md R137). -/
theorem edge_inv {s : State} (p : Ports) (hi : EngineInv s) (hp : p.rst = false) :
    ∃ t, edge p s = .next t ∧ EngineInv t ∧ (s.st ≠ .idle → remaining t + 1 = remaining s) := by
  simp only [edge, hp, Bool.false_eq_true, if_false]
  cases hs : s.st with
  | boot =>
    obtain ⟨t, h1, h2, h3⟩ := bootArm_inv hi hs
    exact ⟨t, h1, h2, fun _ => h3⟩
  | idle =>
    dsimp only
    split
    · cases hd : decode p.cmdWord with
      | reserved _ =>
        exact ⟨setErr s, rfl, ⟨hi.valid, by simp [hs], by simpa using hi.idle, hi.enable, by simp [hs], by simp [hs],
          by simp [hs], hi.pidx, hi.cnt, hi.lines⟩, by simp⟩
      | legal i =>
        obtain ⟨t, h1, h2, -⟩ := exec_inv (wf_of_decode hd) hi hs
        exact ⟨t, h1, h2, by simp⟩
    · exact ⟨s, rfl, hi, by simp⟩
  | nib =>
    obtain ⟨ho, hc, -, hop, -⟩ := hi.nib hs
    dsimp only
    unfold nibArm
    split
    next hgt =>
      refine ⟨countDown s, rfl, countDown_inv hi (.inl hs) hgt, fun _ => ?_⟩
      simp [remaining, hs]
      omega
    next hle =>
      have h1 : s.cnt = 1 := by omega
      unfold phaseEnd
      cases hph : s.ph with
      | pre =>
        refine ⟨_, rfl, raiseEnable_inv hi hs, fun _ => ?_⟩
        cases hh : s.half <;> simp [remaining, hs, hh, hph, phasesAfter, h1] <;> omega
      | pulse =>
        refine ⟨_, rfl, lowerEnable_inv hi hs, fun _ => ?_⟩
        cases hh : s.half <;> simp [remaining, hs, hh, hph, phasesAfter, h1] <;> omega
      | post =>
        have he : s.e = false := by simpa [hs, hph] using hi.enable
        cases hh : s.half with
        | hi =>
          refine ⟨_, rfl, lowNibble_inv hi hs hph, fun _ => ?_⟩
          simp [remaining, hs, hh, hph, phasesAfter, h1]
          omega
        | lo =>
          obtain ⟨t, h2, h3, h4⟩ := nextOp_inv hi (.inl hs) ho he hop (by simp)
          refine ⟨t, h2, h3, fun _ => ?_⟩
          rw [h4]
          simp [remaining, hs, hh, hph, phasesAfter, h1]
          omega
  | wait =>
    obtain ⟨ho, hc, n, r, hop, -⟩ := hi.wait hs
    have he : s.e = false := by simpa [hs] using hi.enable
    dsimp only
    unfold waitArm
    split
    next hgt =>
      refine ⟨countDown s, rfl, countDown_inv hi (.inr hs) hgt, fun _ => ?_⟩
      simp [remaining, hs]
      omega
    next hle =>
      have h1 : s.cnt = 1 := by omega
      obtain ⟨t, h2, h3, h4⟩ := nextOp_inv hi (.inr hs) ho he hop (by simp)
      refine ⟨t, h2, h3, fun _ => ?_⟩
      rw [h4]
      simp [remaining, hs, h1]
      omega

/-- All that an edge without reset can do, in every state: the one inversion lemma of the edge function. -/
inductive EdgeCase (p : Ports) (s t : State) : Prop where
  /-- `IDLE` with no command. -/
  | stays (hs : s.st = .idle) (hv : p.cmdValid = false) (ht : t = s)
  /-- `IDLE` accepts a reserved word. -/
  | reserved (hs : s.st = .idle) (hv : p.cmdValid = true) (why : ReservedWord)
      (hd : decode p.cmdWord = .reserved why) (ht : t = setErr s)
  /-- `IDLE` accepts a command. -/
  | accepts (hs : s.st = .idle) (hv : p.cmdValid = true) (i : Instr) (hd : decode p.cmdWord = .legal i)
      (ht : exec i s = .next t)
  /-- `BOOT`. -/
  | boots (hs : s.st = .boot) (ht : bootArm s = .next t)
  /-- Within a phase or a wait. -/
  | counts (hs : s.st = .nib ∨ s.st = .wait) (hc : 1 < s.cnt) (ht : t = countDown s)
  | raises (hs : s.st = .nib) (hc : s.cnt ≤ 1) (hp : s.ph = .pre) (ht : t = raiseEnable s)
  | lowers (hs : s.st = .nib) (hc : s.cnt ≤ 1) (hp : s.ph = .pulse) (ht : t = lowerEnable s)
  | switches (hs : s.st = .nib) (hc : s.cnt ≤ 1) (hp : s.ph = .post) (hh : s.half = .hi) (ht : t = lowNibble s)
  /-- The end of a byte or of a wait. -/
  | goesOn (hs : (s.st = .nib ∧ s.ph = .post ∧ s.half = .lo) ∨ s.st = .wait) (hc : s.cnt ≤ 1)
      (ht : nextOp s = .next t)

theorem edge_cases {p : Ports} {s t : State} (hp : p.rst = false) (h : edge p s = .next t) : EdgeCase p s t := by
  simp only [edge, hp, Bool.false_eq_true, if_false] at h
  cases hs : s.st <;> simp only [hs] at h
  case boot => exact .boots hs h
  case idle =>
    split at h
    next hv =>
      split at h
      next why hd =>
        simp only [reservedWord, Host.Outcome.next.injEq] at h
        exact .reserved hs hv why hd h.symm
      next i hd => exact .accepts hs hv i hd h
    next hv =>
      simp only [Host.Outcome.next.injEq] at h
      exact .stays hs (by simpa using hv) h.symm
  case nib =>
    unfold nibArm at h
    split at h
    next hc =>
      simp only [Host.Outcome.next.injEq] at h
      exact .counts (.inl hs) hc h.symm
    next hc =>
      have hc : s.cnt ≤ 1 := by omega
      unfold phaseEnd at h
      split at h
      next hp =>
        simp only [Host.Outcome.next.injEq] at h
        exact .raises hs hc hp h.symm
      next hp =>
        simp only [Host.Outcome.next.injEq] at h
        exact .lowers hs hc hp h.symm
      next hp =>
        split at h
        next hh =>
          simp only [Host.Outcome.next.injEq] at h
          exact .switches hs hc hp hh h.symm
        next hh => exact .goesOn (.inl ⟨hs, hp, hh⟩) hc h
  case wait =>
    unfold waitArm at h
    split at h
    next hc =>
      simp only [Host.Outcome.next.injEq] at h
      exact .counts (.inr hs) hc h.symm
    next hc => exact .goesOn (.inr hs) (by omega) h

/-- What starting a command's program can do (30_encoding.md R77). -/
theorem exec_entered {i : Instr} {s t : State} (h : exec i s = .next t) :
    i.wf = true ∧ Entered (microProg { latch (encode i) s with prog := progOf i, pidx := 0#4 })
      { latch (encode i) s with prog := progOf i, pidx := 0#4 } t := by
  have hw : i.wf = true := by
    cases i <;> try rfl
    next n =>
      by_contra hn
      have : ¬ (1 ≤ n ∧ n ≤ 4) := by simpa [Instr.wf] using hn
      simp only [exec, execLine, if_neg this, reduceCtorEq] at h
  refine ⟨hw, ?_⟩
  rw [exec_eq_start hw] at h
  exact enterFrom_entered h

/-- What the `BOOT` arm can do. -/
theorem bootArm_entered {s t : State} (h : bootArm s = .next t) :
    Entered (microProg { s with prog := .init, pidx := 0#4 }) { s with prog := .init, pidx := 0#4 } t :=
  enterFrom_entered h

/-- What the end of a byte or of a wait can do. -/
theorem nextOp_entered {s t : State} (h : nextOp s = .next t) :
    Entered ((microProg s).drop (nextIdx s).pidx.toNat) (nextIdx s) t := by
  rw [nextOp, microProg_nextIdx] at h
  exact enterFrom_entered h

/-- An edge without reset keeps the configuration, the host and the edge count, and appends to the trace the events
whose effect the lines show (41_byte_transfer.md R140). -/
theorem edge_emits {p : Ports} {s t : State} (hp : p.rst = false) (h : edge p s = .next t) :
    t.cfg = s.cfg ∧ t.host = s.host ∧ t.edgeNo = s.edgeNo
    ∧ ∃ evs, t.trace = s.trace ++ evs ∧ t.lines = s.lines.applyAll evs := by
  have plain : ∀ u : State, u.cfg = s.cfg → u.host = s.host → u.edgeNo = s.edgeNo → ∀ evs, u.trace = s.trace ++ evs →
      u.lines = s.lines.applyAll evs → u.cfg = s.cfg ∧ u.host = s.host ∧ u.edgeNo = s.edgeNo
        ∧ ∃ evs, u.trace = s.trace ++ evs ∧ u.lines = s.lines.applyAll evs :=
    fun u a b c evs d e => ⟨a, b, c, evs, d, e⟩
  have entered : ∀ {us : List MicroOp} {q : State}, Entered us q t → q.cfg = s.cfg → q.host = s.host →
      q.edgeNo = s.edgeNo → q.trace = s.trace → q.lines = s.lines → t.cfg = s.cfg ∧ t.host = s.host
        ∧ t.edgeNo = s.edgeNo ∧ ∃ evs, t.trace = s.trace ++ evs ∧ t.lines = s.lines.applyAll evs := by
    intro us q r a b c d e
    obtain ⟨evs, e1, -, e3⟩ := r.emits
    exact ⟨r.cfg.trans a, r.outside.1.trans b, r.outside.2.trans c, evs, by rw [e1, d], by rw [e3, e]⟩
  cases edge_cases hp h with
  | stays _ _ ht => subst ht; exact plain _ rfl rfl rfl [] (by simp) rfl
  | reserved _ _ _ _ ht => subst ht; exact plain _ rfl rfl rfl [] (by simp) rfl
  | accepts _ _ i _ ht => exact entered (exec_entered ht).2 rfl rfl rfl rfl rfl
  | boots _ ht => exact entered (bootArm_entered ht) rfl rfl rfl rfl rfl
  | counts _ _ ht => subst ht; exact plain _ rfl rfl rfl [] (by simp) rfl
  | raises _ _ _ ht => subst ht; exact plain _ rfl rfl rfl _ rfl (by simp [Lines.apply, State.lines])
  | lowers _ _ _ ht => subst ht; exact plain _ rfl rfl rfl _ rfl (by simp [Lines.apply, State.lines])
  | switches _ _ _ _ ht => subst ht; exact plain _ rfl rfl rfl _ rfl (by simp [Lines.apply, State.lines])
  | goesOn _ _ ht => exact entered (nextOp_entered ht) rfl rfl rfl rfl rfl

/-- What a step adds around the edge keeps the invariant: it writes the model's own two fields only. -/
theorem afterEdge_inv {a : Bool} {s : State} (h : EngineInv s) : EngineInv (afterEdge a s) :=
  { h with
    boot := fun hs => by
      have : afterEdge a s = afterEdge a (resetEdge s) := congrArg _ (h.boot hs)
      rw [this]
      rfl }

/-- An edge takes moves off the host's script and adds none (60_exceptions.md R240). -/
theorem mem_of_mem_hostAfter {a : Bool} {m : HostMove} {ms : List HostMove} (h : m ∈ hostAfter a ms) : m ∈ ms := by
  cases ms with
  | nil => simp [hostAfter] at h
  | cons x xs =>
    cases x with
    | present w => cases a <;> simp_all [hostAfter]
    | levels p => exact List.mem_cons_of_mem _ h
    | foreignDrive l v => exact List.mem_cons_of_mem _ h

/-- What a step that answers a next state did: one edge with the host's inputs, in a valid configuration. -/
theorem step_next {s t : State} (h : step s = .next t) :
    s.cfg.valid = true ∧ drivesLine s = false
    ∧ ∃ u, edge (hostPorts s) s = .next u ∧ t = afterEdge (accepts (hostPorts s) s) u := by
  unfold step at h
  split at h
  next hv =>
    split at h
    · simp at h
    next hd =>
      refine ⟨hv, by simpa using hd, ?_⟩
      split at h
      next u hu => exact ⟨u, hu, by simpa using h.symm⟩
      all_goals simp at h
  next => simp at h

end Sys2Proof.Machine
end

