-- ==== Sys2Proof/Laws/PerInstr.lean ====
section
/-! SUPPORT. One fact per command as syntax: its word matches its row of 30_encoding.md R71, mask and match. -/

namespace Sys2Proof.Laws.EncodeMatchesRow

open Sys2Proof

/-- The mask of a command's row in 30_encoding.md R71. -/
def rowMask : Instr → Word
  | .nop => 0xFFFF#16
  | .xferC _ => 0xFF00#16
  | .xferD _ => 0xFF00#16
  | .line _ => 0xFCFF#16
  | .clear => 0xFFFF#16
  | .delay _ => 0xF000#16

/-- The match of a command's row in 30_encoding.md R71. -/
def rowMatch : Instr → Word
  | .nop => 0x0000#16
  | .xferC _ => 0x1000#16
  | .xferD _ => 0x1100#16
  | .line _ => 0x2000#16
  | .clear => 0x3000#16
  | .delay _ => 0x4000#16

/-- Masking the high field of a word leaves the field. -/
theorem mask_high {m n : Nat} (a : BitVec m) (b : BitVec n) :
    (a ++ b) &&& (BitVec.allOnes m ++ 0#n) = a ++ 0#n := by
  rw [BitVec.and_append]
  simp

/-- The word of a well-formed command matches its own row. -/
def Statement (i : Instr) : Prop := i.wf = true → encode i &&& rowMask i = rowMatch i

theorem nop : Statement .nop := fun _ => by decide

theorem xferC (b : Byte) : Statement (.xferC b) := fun _ => mask_high 0x10#8 b

theorem xferD (b : Byte) : Statement (.xferD b) := fun _ => mask_high 0x11#8 b

theorem line (n : Nat) : Statement (.line n) := fun _ => by
  show (0b001000#6 ++ lineField n ++ 0x00#8) &&& 0xFCFF#16 = 0x2000#16
  generalize lineField n = l
  revert l
  decide

theorem clear : Statement .clear := fun _ => by decide

theorem delay (c : BitVec 12) : Statement (.delay c) := fun _ => mask_high 0x4#4 c

end Sys2Proof.Laws.EncodeMatchesRow
end

