-- ==== Sys2Proof/Laws/Run.lean ====
section
/-! SUPPORT. Runs of edges: a phase or a wait counts down and ends (41_byte_transfer.md R132), and a whole byte
transfer in closed form (R130, R138). -/

namespace Sys2Proof.Machine

open Safety

@[simp] theorem andThen_next (s : State) (f : State → Out) : andThen (.next s) f = f s := rfl

@[simp] theorem runEdges_nil (s : State) : runEdges [] s = .next s := rfl

theorem runEdges_cons (p : Ports) (ps : List Ports) (s : State) :
    runEdges (p :: ps) s = andThen (edge p s) (runEdges ps) := rfl

theorem andThen_assoc (o : Out) (f g : State → Out) :
    andThen (andThen o f) g = andThen o (fun s => andThen (f s) g) := by
  cases o <;> rfl

theorem runEdges_append (ps qs : List Ports) (s : State) :
    runEdges (ps ++ qs) s = andThen (runEdges ps s) (runEdges qs) := by
  induction ps generalizing s with
  | nil => rfl
  | cons p ps ih =>
    rw [List.cons_append, runEdges_cons, runEdges_cons, andThen_assoc]
    cases edge p s <;> simp [andThen, ih]

theorem noReset_append {ps qs : List Ports} : NoReset (ps ++ qs) ↔ NoReset ps ∧ NoReset qs := by
  simp [NoReset, or_imp, forall_and]

theorem noReset_cons {p : Ports} {ps : List Ports} : NoReset (p :: ps) ↔ p.rst = false ∧ NoReset ps := by
  simp [NoReset]

/-- A list of edges cut after `n` of them. -/
theorem split_edges {ps : List Ports} {n k : Nat} (h : ps.length = n + k) (hr : NoReset ps) :
    ∃ qs rs, ps = qs ++ rs ∧ qs.length = n ∧ rs.length = k ∧ NoReset qs ∧ NoReset rs := by
  have e := (List.take_append_drop n ps).symm
  have hh := hr
  rw [e, noReset_append] at hh
  refine ⟨_, _, e, ?_, ?_, hh.1, hh.2⟩
  · rw [List.length_take]; omega
  · rw [List.length_drop]; omega

/-- A state in the last cycle of its phase or wait. -/
def lastCycle (s : State) : State := { s with cnt := 1 }

@[simp] theorem lastCycle_cfg (s : State) : (lastCycle s).cfg = s.cfg := rfl
@[simp] theorem lastCycle_oe (s : State) : (lastCycle s).oe = s.oe := rfl
@[simp] theorem lastCycle_rs (s : State) : (lastCycle s).rs = s.rs := rfl
@[simp] theorem lastCycle_e (s : State) : (lastCycle s).e = s.e := rfl
@[simp] theorem lastCycle_d (s : State) : (lastCycle s).d = s.d := rfl
@[simp] theorem lastCycle_st (s : State) : (lastCycle s).st = s.st := rfl
@[simp] theorem lastCycle_prog (s : State) : (lastCycle s).prog = s.prog := rfl
@[simp] theorem lastCycle_pidx (s : State) : (lastCycle s).pidx = s.pidx := rfl
@[simp] theorem lastCycle_opData (s : State) : (lastCycle s).opData = s.opData := rfl
@[simp] theorem lastCycle_opM (s : State) : (lastCycle s).opM = s.opM := rfl
@[simp] theorem lastCycle_opLine (s : State) : (lastCycle s).opLine = s.opLine := rfl
@[simp] theorem lastCycle_opCount (s : State) : (lastCycle s).opCount = s.opCount := rfl
@[simp] theorem lastCycle_curByte (s : State) : (lastCycle s).curByte = s.curByte := rfl
@[simp] theorem lastCycle_half (s : State) : (lastCycle s).half = s.half := rfl
@[simp] theorem lastCycle_ph (s : State) : (lastCycle s).ph = s.ph := rfl
@[simp] theorem lastCycle_cnt (s : State) : (lastCycle s).cnt = 1 := rfl
@[simp] theorem lastCycle_initDone (s : State) : (lastCycle s).initDone = s.initDone := rfl
@[simp] theorem lastCycle_err (s : State) : (lastCycle s).err = s.err := rfl
@[simp] theorem lastCycle_trace (s : State) : (lastCycle s).trace = s.trace := rfl
@[simp] theorem lastCycle_host (s : State) : (lastCycle s).host = s.host := rfl
@[simp] theorem lastCycle_edgeNo (s : State) : (lastCycle s).edgeNo = s.edgeNo := rfl

@[simp] theorem microProg_lastCycle (s : State) : microProg (lastCycle s) = microProg s :=
  microProg_congr rfl rfl rfl rfl rfl rfl

/-- Within a phase or a wait an edge only counts (41_byte_transfer.md R132). -/
theorem edge_count {p : Ports} {s : State} (hp : p.rst = false) (hb : s.st = .nib ∨ s.st = .wait) (hc : 1 < s.cnt) :
    edge p s = .next { s with cnt := s.cnt - 1 } := by
  rcases hb with hb | hb <;> simp [edge, hp, hb, nibArm, waitArm, hc, countDown]

/-- The edges before the last of a phase or a wait only count. -/
theorem run_count {ps : List Ports} {s : State} (hr : NoReset ps) (hb : s.st = .nib ∨ s.st = .wait)
    (hl : ps.length < s.cnt) : runEdges ps s = .next { s with cnt := s.cnt - ps.length } := by
  induction ps generalizing s with
  | nil => simp
  | cons p ps ih =>
    rw [noReset_cons] at hr
    simp only [List.length_cons] at hl
    rw [runEdges_cons, edge_count hr.1 hb (by omega), andThen_next,
      ih (s := { s with cnt := s.cnt - 1 }) hr.2 hb (Nat.lt_sub_of_add_lt hl)]
    simp only [List.length_cons, Nat.sub_sub, Nat.add_comm]

/-- The edges up to the last of a phase or a wait. -/
theorem run_to_last {ps : List Ports} {s : State} (hr : NoReset ps) (hb : s.st = .nib ∨ s.st = .wait)
    (hl : ps.length = s.cnt) (hc : 1 ≤ s.cnt) :
    ∃ p, p.rst = false ∧ runEdges ps s = andThen (edge p (lastCycle s)) .next := by
  obtain ⟨qs, rs, rfl, h1, h2, h3, h4⟩ := split_edges (n := s.cnt - 1) (k := 1) (by omega) hr
  obtain ⟨p, rfl⟩ := List.length_eq_one_iff.mp h2
  refine ⟨p, (noReset_cons.mp h4).1, ?_⟩
  rw [runEdges_append, run_count h3 hb (by omega), andThen_next, h1]
  have : s.cnt - (s.cnt - 1) = 1 := by omega
  rw [this]
  rfl

theorem andThen_next_right (o : Out) : andThen o .next = o := by cases o <;> rfl

/-- A whole phase of a nibble: all its edges but the last count, the last ends it (41_byte_transfer.md R132, R133). -/
theorem run_phase {ps : List Ports} {s : State} (hr : NoReset ps) (hb : s.st = .nib) (hl : ps.length = s.cnt)
    (hc : 1 ≤ s.cnt) : runEdges ps s = phaseEnd (lastCycle s) := by
  obtain ⟨p, hp, h⟩ := run_to_last hr (.inl hb) hl hc
  rw [h, andThen_next_right]
  simp [edge, hp, hb, nibArm]

/-- A whole wait: all its edges but the last count, the last enters the next micro-operation (41_byte_transfer.md
R132, R134). -/
theorem run_wait {ps : List Ports} {s : State} (hr : NoReset ps) (hb : s.st = .wait) (hl : ps.length = s.cnt)
    (hc : 1 ≤ s.cnt) : runEdges ps s = nextOp (lastCycle s) := by
  obtain ⟨p, hp, h⟩ := run_to_last hr (.inr hb) hl hc
  rw [h, andThen_next_right]
  simp [edge, hp, hb, waitArm]

/-- `next()` in a program whose rest is known (41_byte_transfer.md R131). -/
theorem nextOp_eq {s : State} (k : Nat) (us : List MicroOp) (hp : s.pidx.toNat + 1 = k) (hk : k < 16)
    (hu : (microProg s).drop k = us) : nextOp s = enterFrom us (nextIdx s) := by
  have : (nextIdx s).pidx.toNat = k := by
    simp only [nextIdx_pidx, BitVec.toNat_add, BitVec.toNat_ofNat]
    omega
  rw [nextOp, this, microProg_nextIdx, hu]

/-- The state in the last cycle of a byte transfer started in `s`. -/
def transferEnd (b : Byte) (m : Bool) (s : State) : State :=
  { s with
    st := .nib, curByte := b, rs := m, e := false, d := loNibble b, half := .lo, ph := .post, cnt := 1,
    trace := s.trace ++ xfer s.cfg b m }

/-- What the end of phase k of a byte transfer does (41_byte_transfer.md R130, R133). -/
def endOfPhase : Nat → State → State
  | 1 => raiseEnable
  | 2 => lowerEnable
  | 3 => lowNibble
  | 4 => raiseEnable
  | _ => lowerEnable

/-- `afterPhase b m s k` is the state at the edge that begins phase k + 1 of the table of 41_byte_transfer.md R130, for a
byte transfer entered in `s`. -/
def afterPhase (b : Byte) (m : Bool) (s : State) : Nat → State
  | 0 => enterX b m s
  | k + 1 => endOfPhase (k + 1) (lastCycle (afterPhase b m s k))

/-- The edges of phases 1 to k. -/
def phaseStart (c : Config) : Nat → Nat
  | 0 => 0
  | 1 => c.nSettle
  | 2 => c.nSettle + c.nPulse
  | 3 => 2 * c.nSettle + c.nPulse
  | 4 => 3 * c.nSettle + c.nPulse
  | _ => 3 * c.nSettle + 2 * c.nPulse

theorem endOfPhase_st (k : Nat) (s : State) : (endOfPhase k s).st = s.st := by
  unfold endOfPhase; split <;> rfl

theorem afterPhase_st (b : Byte) (m : Bool) (s : State) : ∀ k, (afterPhase b m s k).st = .nib
  | 0 => rfl
  | k + 1 => (endOfPhase_st _ _).trans (afterPhase_st b m s k)

theorem endOfPhase_keeps (k : Nat) (s : State) :
    (endOfPhase k s).cfg = s.cfg ∧ (endOfPhase k s).oe = s.oe ∧ (endOfPhase k s).rs = s.rs
    ∧ (endOfPhase k s).curByte = s.curByte ∧ (endOfPhase k s).initDone = s.initDone := by
  unfold endOfPhase; split <;> simp

/-- What every phase of a byte transfer keeps: RS is the mode, the byte is held, `oe`, `init_done` and the
configuration are untouched (41_byte_transfer.md R130). -/
theorem afterPhase_keeps (b : Byte) (m : Bool) (s : State) : ∀ k,
    (afterPhase b m s k).cfg = s.cfg ∧ (afterPhase b m s k).oe = s.oe ∧ (afterPhase b m s k).rs = m
    ∧ (afterPhase b m s k).curByte = b ∧ (afterPhase b m s k).initDone = s.initDone
  | 0 => ⟨rfl, rfl, rfl, rfl, rfl⟩
  | k + 1 => by
    have h := endOfPhase_keeps (k + 1) (lastCycle (afterPhase b m s k))
    have ih := afterPhase_keeps b m s k
    exact ⟨h.1.trans ih.1, h.2.1.trans ih.2.1, h.2.2.1.trans ih.2.2.1, h.2.2.2.1.trans ih.2.2.2.1,
      h.2.2.2.2.trans ih.2.2.2.2⟩

/-- The data lines and Enable in each of the six phases (41_byte_transfer.md R130). -/
theorem afterPhase_lines (b : Byte) (m : Bool) (s : State) {k : Nat} (hk : k ≤ 5) :
    (afterPhase b m s k).d = (if k ≤ 2 then hiNibble b else loNibble b)
    ∧ (afterPhase b m s k).e = (if k = 0 then s.e else decide (k = 1 ∨ k = 4)) := by
  interval_cases k <;> simp [afterPhase, endOfPhase]

/-- The length of each of the six phases (41_byte_transfer.md R130). -/
theorem afterPhase_cnt (b : Byte) (m : Bool) (s : State) {k : Nat} (hk : k ≤ 5) :
    (afterPhase b m s k).cnt = if k = 1 ∨ k = 4 then s.cfg.nPulse else s.cfg.nSettle := by
  interval_cases k <;> simp [afterPhase, endOfPhase]

/-- A byte transfer reaches the beginning of each phase at the edge R138 gives. -/
theorem run_to_phase {b : Byte} {m : Bool} {s : State} (hv : s.cfg.valid = true) (k : Nat) (hk : k ≤ 5) :
    ∀ ps, NoReset ps → ps.length = phaseStart s.cfg k → runEdges ps (enterX b m s) = .next (afterPhase b m s k) := by
  have hs := valid_nSettle hv
  have hp := valid_nPulse hv
  have step : ∀ (j n : Nat) (t : State), (∀ ps, NoReset ps → ps.length = n →
        runEdges ps (enterX b m s) = .next (afterPhase b m s j)) →
      1 ≤ (afterPhase b m s j).cnt → phaseEnd (lastCycle (afterPhase b m s j)) = .next t →
      ∀ ps, NoReset ps → ps.length = n + (afterPhase b m s j).cnt → runEdges ps (enterX b m s) = .next t := by
    intro j n t h hc ht ps hr hl
    obtain ⟨qs, rs, rfl, h1, h2, h3, h4⟩ := split_edges hl hr
    rw [runEdges_append, h qs h3 h1, andThen_next, run_phase h4 (afterPhase_st b m s j) h2 hc, ht]
  have h0 : ∀ ps, NoReset ps → ps.length = 0 → runEdges ps (enterX b m s) = .next (afterPhase b m s 0) := by
    intro ps _ hl
    rw [List.length_eq_zero_iff.mp hl]
    rfl
  have h1 := step 0 0 (afterPhase b m s 1) h0 hs rfl
  have h2 := step 1 _ (afterPhase b m s 2) h1 hp rfl
  have h3 := step 2 _ (afterPhase b m s 3) h2 hs rfl
  have h4 := step 3 _ (afterPhase b m s 4) h3 hs rfl
  have h5 := step 4 _ (afterPhase b m s 5) h4 hp rfl
  have c0 : (afterPhase b m s 0).cnt = s.cfg.nSettle := rfl
  have c1 : (afterPhase b m s 1).cnt = s.cfg.nPulse := rfl
  have c2 : (afterPhase b m s 2).cnt = s.cfg.nSettle := rfl
  have c3 : (afterPhase b m s 3).cnt = s.cfg.nSettle := rfl
  have c4 : (afterPhase b m s 4).cnt = s.cfg.nPulse := rfl
  intro ps hr hl
  interval_cases k
  · exact h0 ps hr hl
  · exact h1 ps hr (by rw [hl]; simp only [phaseStart]; omega)
  · exact h2 ps hr (by rw [hl]; simp only [phaseStart]; omega)
  · exact h3 ps hr (by rw [hl]; simp only [phaseStart]; omega)
  · exact h4 ps hr (by rw [hl]; simp only [phaseStart]; omega)
  · exact h5 ps hr (by rw [hl]; simp only [phaseStart]; omega)

theorem afterPhase_last (b : Byte) (m : Bool) (s : State) :
    lastCycle (afterPhase b m s 5) = transferEnd b m s := by
  simp [lastCycle, afterPhase, endOfPhase, transferEnd, xfer_parts, enterX, raiseEnable, lowerEnable, lowNibble, emit]

theorem phaseEnd_transferEnd (b : Byte) (m : Bool) (s : State) :
    phaseEnd (transferEnd b m s) = nextOp (transferEnd b m s) := by
  generalize ht : transferEnd b m s = t
  have h1 : t.ph = .post := by rw [← ht]; rfl
  have h2 : t.half = .lo := by rw [← ht]; rfl
  simp [phaseEnd, h1, h2]

/-- A byte transfer takes `T_X = 4 * N_SETTLE + 2 * N_PULSE` edges and then enters the next micro-operation
(41_byte_transfer.md R138). -/
theorem run_transfer {b : Byte} {m : Bool} {s : State} {ps : List Ports} (hv : s.cfg.valid = true) (hr : NoReset ps)
    (hl : ps.length = s.cfg.transferCycles) : runEdges ps (enterX b m s) = nextOp (transferEnd b m s) := by
  have hlen : ps.length = phaseStart s.cfg 5 + s.cfg.nSettle := by
    rw [hl]; simp only [phaseStart, Config.transferCycles]; omega
  obtain ⟨qs, rs, rfl, h1, h2, h3, h4⟩ := split_edges hlen hr
  have hcnt : (afterPhase b m s 5).cnt = s.cfg.nSettle := rfl
  rw [runEdges_append, run_to_phase hv 5 (Nat.le_refl 5) qs h3 h1, andThen_next,
    run_phase h4 (afterPhase_st b m s 5) (h2.trans hcnt.symm) (hcnt ▸ valid_nSettle hv), afterPhase_last,
    phaseEnd_transferEnd]

/-- Any edge of a byte transfer lies in one of its six phases, and the state there is the phase's, counted down
(41_byte_transfer.md R130, R138). -/
theorem in_transfer (b : Byte) (m : Bool) {s : State} {ps : List Ports} (hv : s.cfg.valid = true) (hr : NoReset ps)
    (hl : ps.length < s.cfg.transferCycles) :
    ∃ j r, j ≤ 5 ∧ r < (if j = 1 ∨ j = 4 then s.cfg.nPulse else s.cfg.nSettle) ∧ ps.length = phaseStart s.cfg j + r
      ∧ runEdges ps (enterX b m s) =
        .next { afterPhase b m s j with cnt := (afterPhase b m s j).cnt - r } := by
  have place : ∃ j r, j ≤ 5 ∧ r < (if j = 1 ∨ j = 4 then s.cfg.nPulse else s.cfg.nSettle)
      ∧ ps.length = phaseStart s.cfg j + r := by
    unfold Config.transferCycles at hl
    by_cases h1 : ps.length < phaseStart s.cfg 1
    · exact ⟨0, ps.length, by omega, by simpa [phaseStart] using h1, by simp [phaseStart]⟩
    by_cases h2 : ps.length < phaseStart s.cfg 2
    · exact ⟨1, ps.length - phaseStart s.cfg 1, by omega, by simp [phaseStart] at *; omega, by omega⟩
    by_cases h3 : ps.length < phaseStart s.cfg 3
    · exact ⟨2, ps.length - phaseStart s.cfg 2, by omega, by simp [phaseStart] at *; omega, by omega⟩
    by_cases h4 : ps.length < phaseStart s.cfg 4
    · exact ⟨3, ps.length - phaseStart s.cfg 3, by omega, by simp [phaseStart] at *; omega, by omega⟩
    by_cases h5 : ps.length < phaseStart s.cfg 5
    · exact ⟨4, ps.length - phaseStart s.cfg 4, by omega, by simp [phaseStart] at *; omega, by omega⟩
    · exact ⟨5, ps.length - phaseStart s.cfg 5, by omega, by simp [phaseStart] at *; omega, by omega⟩
  obtain ⟨j, r, hj, hr', hlen⟩ := place
  refine ⟨j, r, hj, hr', hlen, ?_⟩
  obtain ⟨qs, rs, rfl, h1, h2, h3, h4⟩ := split_edges hlen hr
  rw [runEdges_append, run_to_phase hv j hj qs h3 h1, andThen_next,
    run_count h4 (.inl (afterPhase_st b m s j)) (by rw [afterPhase_cnt b m s hj, h2]; exact hr'), h2]

/-- Edges without reset keep the invariant, from every state that meets it. -/
theorem run_inv {ps : List Ports} {s : State} (hi : EngineInv s) (hr : NoReset ps) :
    ∃ t, runEdges ps s = .next t ∧ EngineInv t := by
  induction ps generalizing s with
  | nil => exact ⟨s, rfl, hi⟩
  | cons p ps ih =>
    obtain ⟨u, h1, h2, -⟩ := edge_inv p hi (noReset_cons.mp hr).1
    rw [runEdges_cons, h1, andThen_next]
    exact ih h2 (noReset_cons.mp hr).2

end Sys2Proof.Machine
end

