-- ==== Sys2Proof/Tests/Slice0.lean ====
section
/-! SUPPORT. Small tests, their expected results from 95_test_vectors.md or worked out by hand from the rule named, and
for every statement with hypotheses a witness that meets them. -/

namespace Sys2Proof.Tests

open Sys2Proof Sys2Proof.Machine Sys2Proof.Machine.Safety

/-! ### Helpers -/

/-- `P_REF` after bring-up. -/
def ready : State := makeReady State.reset

/-- `P_TOY` after bring-up. -/
def toyReady : State := makeReady { State.reset with cfg := Config.pToy }

/-- k edges with a quiet port. -/
def quiet (k : Nat) : List Ports := List.replicate k .quiet

/-- The state k quiet edges after the edge at which a ready engine accepts a command. -/
def busyWith (s : State) (i : Instr) (k : Nat) : State :=
  (nextState? (andThen (exec i s) (runEdges (quiet k)))).getD s

/-- The next state of a step, or the state itself. -/
def stepped (s : State) : State := (nextState? (step s)).getD s

theorem quiet_noReset (k : Nat) : NoReset (quiet k) := by
  intro p hp
  rw [List.eq_of_mem_replicate hp]
  rfl

theorem reset_inv : EngineInv State.reset := resetEdge_inv (s := State.reset) (by decide)

theorem ready_inv : EngineInv ready where
  valid := by decide
  boot := by decide
  idle := by decide
  enable := by decide
  nib := by decide
  wait := fun h => absurd h (by decide)
  bringUp := by decide
  pidx := by decide
  cnt := by decide
  lines := by decide

/-- Every state `busyWith` gives from a ready engine meets the invariant. -/
theorem busyWith_inv (i : Instr) (k : Nat) (h : i.wf = true) : EngineInv (busyWith ready i k) := by
  obtain ⟨t, h1, h2, -⟩ := exec_inv h ready_inv (by decide)
  obtain ⟨u, h3, h4⟩ := run_inv h2 (quiet_noReset k)
  simp only [busyWith, h1, andThen_next, h3]
  exact h4

/-! ### Well-formedness -/

theorem test_line_zero_ill_formed : (Instr.line 0).wf = false := by decide
theorem test_line_five_ill_formed : (Instr.line 5).wf = false := by decide
theorem test_line_bounds_well_formed : (Instr.line 1).wf = true ∧ (Instr.line 4).wf = true := by decide

/-! ### Decoding: words written bit by bit from 30_encoding.md R71 -/

theorem test_decode_nop : decode 0b0000000000000000#16 = .legal .nop := by decide
theorem test_decode_xferC : decode 0b0001000011111110#16 = .legal (.xferC 0xFE) := by decide
theorem test_decode_xferD : decode 0b0001000101000001#16 = .legal (.xferD 0x41) := by decide
theorem test_decode_line : decode 0b0010000100000000#16 = .legal (.line 2) := by decide
theorem test_decode_clear : decode 0b0011000000000000#16 = .legal .clear := by decide
theorem test_decode_delay : decode 0b0100100000000001#16 = .legal (.delay 2049) := by decide
/-- 95_test_vectors.md section 2.1, one word of each reserved group. -/
theorem test_decode_reserved :
    decode 0x0001 = .reserved .nopBits ∧ decode 0x1E41 = .reserved .xferBits ∧ decode 0x2400 = .reserved .lineBits
    ∧ decode 0x2001 = .reserved .lineBits ∧ decode 0x3100 = .reserved .clearBits ∧ decode 0x5000 = .reserved .opcode
    ∧ decode 0xFFFF = .reserved .opcode := by decide
theorem test_decode_table_word :
    decodeTableWord 16 0x11A5 = some (.xferD 0xA5) ∧ decodeTableWord 16 0x1200 = none := by decide

/-! ### Commands: one step each -/

/-- 95_test_vectors.md section 2.3: `XFER.D 'A'` accepted. -/
theorem test_step_xferD :
    let t := stepped (State.reset.withFetchWord 16 0x1141)
    t.st = .nib ∧ t.rs = true ∧ t.e = false ∧ t.d = 0x4#4 ∧ t.cnt = 1 ∧ t.host = [] := by decide

/-- 95_test_vectors.md section 2.3: `XFER.D 'A'` under `P_REF`, E at the edge after, then the end. -/
theorem test_xferD_edges :
    (busyWith ready (.xferD 0x41) 1).e = true ∧ (busyWith ready (.xferD 0x41) 3).d = 0x1#4
    ∧ (busyWith ready (.xferD 0x41) 5).st = .nib ∧ (busyWith ready (.xferD 0x41) 6).st = .idle := by decide

/-- 95_test_vectors.md section 2.3: `XFER.C 0x28` under `P_TOY`, the edges at which something changes. -/
theorem test_xferC_edges :
    (busyWith toyReady (.xferC 0x28) 0).d = 0x2#4 ∧ (busyWith toyReady (.xferC 0x28) 2).e = true
    ∧ (busyWith toyReady (.xferC 0x28) 5).e = false ∧ (busyWith toyReady (.xferC 0x28) 7).d = 0x8#4
    ∧ (busyWith toyReady (.xferC 0x28) 14).st = .idle := by decide

/-- 95_test_vectors.md section 2.2: the events of `XFER.C 0x28`, their number and two of them. -/
theorem test_xferC_events :
    (instrEvents Config.pRef (.xferC 0x28)).length = 21
    ∧ (instrEvents Config.pRef (.xferC 0x28))[5]? = some (.set .d5 true)
    ∧ (instrEvents Config.pRef (.xferC 0x28))[15]? = some (.set .d7 true) := by decide

/-- 95_test_vectors.md section 2.5: LINE 3 sends 0x94 although `LINES` is 2. -/
theorem test_step_line : (stepped (State.reset.withFetchWord 16 0x2200)).curByte = 0x94#8
    ∧ Config.pRef.lines = 2 := by decide

/-- 95_test_vectors.md section 2.5: the phases of LINE 4. -/
theorem test_line_phases : phases .reset (instrEvents Config.pRef (.line 4)) = [0x0D#5, 0x04#5] := by decide

/-- 95_test_vectors.md section 2.6: CLEAR under `P_TOY` is busy for 33 cycles. -/
theorem test_clear_length :
    (busyWith toyReady .clear 28).st = .wait ∧ (busyWith toyReady .clear 32).st = .wait
    ∧ (busyWith toyReady .clear 33).st = .idle := by decide

/-- 95_test_vectors.md section 2.6: the phases of CLEAR, at either edge of the pulses. -/
theorem test_clear_phases :
    phases .reset (instrEvents Config.pRef .clear) = [0x00#5, 0x06#5, 0x00#5, 0x01#5]
    ∧ phasesAt false .reset (instrEvents Config.pRef .clear) = [0x00#5, 0x06#5, 0x00#5, 0x01#5] := by decide

/-- 95_test_vectors.md section 2.7: NOP ends at its accepting edge. -/
theorem test_step_nop : (stepped (State.reset.withFetchWord 16 0x0000)).st = .idle
    ∧ (stepped (State.reset.withFetchWord 16 0x0000)).prog = .nop := by decide

/-- 95_test_vectors.md section 2.7: DELAY 5 is over five edges after its accepting edge. -/
theorem test_delay_length : (busyWith ready (.delay 5) 4).st = .wait ∧ (busyWith ready (.delay 5) 5).st = .idle := by
  decide

/-- 95_test_vectors.md section 2.7: DELAY 0 is IDLE at once. -/
theorem test_step_delay_zero : (stepped (State.reset.withFetchWord 16 0x4000)).st = .idle
    ∧ (stepped (State.reset.withFetchWord 16 0x4000)).pidx = 1#4 := by decide

/-- 95_test_vectors.md section 2.7: a reserved word sets `err`, and the engine stays IDLE. -/
theorem test_step_reserved : (stepped (State.reset.withFetchWord 16 0x5000)).err = true
    ∧ (stepped (State.reset.withFetchWord 16 0x5000)).st = .idle := by decide

/-! ### Bring-up and reset -/

/-- 95_test_vectors.md section 2.4: the nibbles of bring-up, in order, all in Command mode. -/
theorem test_bring_up_phases : phases .reset (initEvents Config.pRef)
    = [0x3#5, 0x3#5, 0x3#5, 0x2#5, 0x2#5, 0x8#5, 0x0#5, 0xC#5, 0x0#5, 0x6#5, 0x0#5, 0x1#5] := by decide

/-- 95_test_vectors.md section 2.4: at edge 1 `oe` is 1 and D is 0x3. -/
theorem test_first_edge : (stepped State.reset).oe = true ∧ (stepped State.reset).d = 0x3#4
    ∧ (stepped State.reset).initDone = false := by decide

/-- 95_test_vectors.md section 2.9: a reset in the pulse leaves every line undriven and the engine in BOOT. -/
theorem test_reset_in_pulse :
    let t := stepped { busyWith ready (.xferD 0x41) 1 with host := [.levels .reset] }
    t.oe = false ∧ t.e = false ∧ t.st = .boot ∧ t.initDone = false := by decide

/-! ### The host -/

/-- 60_exceptions.md R241: with `NOP` accepted at the first edge and only a quiet edge left in the script, the run is over
after one edge; a reset still to come presents no command, a word offered for one edge does. -/
theorem test_run_over :
    runLength 3 { ready with host := [.present 0x0000#16, .levels .quiet] } = some 1
    ∧ runOver { ready with host := [.levels .reset] } = true
    ∧ runOver { ready with host := [.levels .quiet, .levels (.offer 0x0000#16)] } = false
    ∧ runOver State.reset = false := by decide

/-- 95_test_vectors.md section 2.8. -/
theorem test_padding : padC Config.pRef "A".toList = some "       A        ".toList
    ∧ padR Config.pRef "AB".toList = some "              AB".toList
    ∧ padL Config.pRef "12345678901234567".toList = none := by decide

/-- 95_test_vectors.md section 2.8: 5 s of Typed speed at 1 ms units. -/
theorem test_typed_units : delayCommands (typedUnits Config.pRef (some ⟨5, 1⟩)) = [.delay 4095, .delay 905]
    ∧ delayCommands (typedUnits Config.pRef (some ⟨25, 10000⟩)) = [.delay 3] := by decide

/-- 95_test_vectors.md section 2.8: no LINE before the third part, unless `EXTEND_LINES`. -/
theorem test_message_address : partAddress Config.pRef 1 = [.line 2] ∧ partAddress Config.pRef 2 = []
    ∧ partAddress { Config.pRef with extendLines := true } 2 = [.line 3] := by decide

/-- 95_test_vectors.md section 2.8: the split of a text. -/
theorem test_split : splitLines "A\nB".toList = ["A".toList, "B".toList] ∧ splitLines "A\n".toList = ["A".toList, []]
    ∧ splitLines [] = [[]] := by decide

/-- 95_test_vectors.md section 2.8: `WRITE 5` is refused. -/
theorem test_write_line_five :
    expand Config.pRef (.write 5 .left "x".toList none) = .refuses .lineNumber := by decide

/-! ### Witnesses: concrete states and operands that meet the hypotheses of each statement together -/

theorem witness_DecodeEncodeAgree : (Instr.line 1).wf = true ∧ (Instr.delay 4095).wf = true := by decide
theorem witness_EncodeDecodeAgree : decode 0x2300#16 = .legal (.line 4) := by decide
theorem witness_DecodeFollowsOpcodeTable :
    let w : Word := 0x1200#16
    w &&& 0xFFFF#16 ≠ 0x0000#16 ∧ w &&& 0xFF00#16 ≠ 0x1000#16 ∧ w &&& 0xFF00#16 ≠ 0x1100#16
    ∧ w &&& 0xFCFF#16 ≠ 0x2000#16 ∧ w &&& 0xFFFF#16 ≠ 0x3000#16 ∧ w &&& 0xF000#16 ≠ 0x4000#16 := by decide
theorem witness_ReservedWordsAreThese : ready.st = .idle ∧ ∃ why, decode 0x5000#16 = .reserved why :=
  ⟨by decide, .opcode, by decide⟩
theorem witness_StepRunsDecodedInstruction :
    let s : State := { ready with host := [.present 0x1141#16] }
    s.cfg.valid = true ∧ s.st = .idle ∧ (hostPorts s).rst = false ∧ (hostPorts s).cmdValid = true
    ∧ decode (hostPorts s).cmdWord = .legal (.xferD 0x41) := by decide
theorem witness_StepIsOneEdge : State.reset.cfg.valid = true ∧ drivesLine State.reset = false := by decide
theorem witness_PlacedWordRunsNext : State.reset.cfg.valid = true ∧ decode 0x3000#16 = .legal .clear := by decide
theorem witness_AcceptanceLatchesOperands :
    (Ports.offer 0x4FFF#16).rst = false ∧ (Ports.offer 0x4FFF#16).cmdValid = true ∧ ready.st = .idle
    ∧ decode (Ports.offer 0x4FFF#16).cmdWord = .legal (.delay 4095) := by decide
theorem witness_XferCCompletes : ready.cfg.valid = true ∧ NoReset (quiet 6)
    ∧ (quiet 6).length = 4 * ready.cfg.nSettle + 2 * ready.cfg.nPulse := ⟨by decide, quiet_noReset 6, by decide⟩
theorem witness_XferDCompletes : toyReady.cfg.valid = true ∧ NoReset (quiet 14)
    ∧ (quiet 14).length = 4 * toyReady.cfg.nSettle + 2 * toyReady.cfg.nPulse :=
  ⟨by decide, quiet_noReset 14, by decide⟩
theorem witness_LineCompletes : ready.cfg.valid = true ∧ (1 ≤ 1 ∧ 1 ≤ 4) ∧ (1 ≤ 4 ∧ 4 ≤ 4) ∧ NoReset (quiet 6)
    ∧ (quiet 6).length = 4 * ready.cfg.nSettle + 2 * ready.cfg.nPulse :=
  ⟨by decide, by decide, by decide, quiet_noReset 6, by decide⟩
theorem witness_LineOutsideRangeRefused : ¬ (1 ≤ 0 ∧ 0 ≤ 4) ∧ ¬ (1 ≤ 5 ∧ 5 ≤ 4) := by decide
theorem witness_ClearCompletes : toyReady.cfg.valid = true ∧ (∀ k, NoReset (quiet k))
    ∧ (quiet 14).length = toyReady.cfg.transferCycles ∧ 2 * toyReady.cfg.transferCycles ≤ (quiet 28).length
    ∧ (quiet 32).length < 2 * toyReady.cfg.transferCycles + toyReady.cfg.nClear
    ∧ (quiet 33).length = 2 * toyReady.cfg.transferCycles + toyReady.cfg.nClear :=
  ⟨by decide, quiet_noReset, by decide, by decide, by decide, by decide⟩
theorem witness_DelayCompletes : ready.cfg.valid = true ∧ (1#12 ≠ 0#12 ∧ 4095#12 ≠ 0#12) ∧ (∀ k, NoReset (quiet k))
    ∧ (quiet 0).length < (1#12).toNat * ready.cfg.nUnit ∧ (quiet 1).length = (1#12).toNat * ready.cfg.nUnit :=
  ⟨by decide, by decide, quiet_noReset, by decide, by decide⟩
theorem witness_ReservedWordSetsErrOnly : decode 0x0001#16 = .reserved .nopBits ∧ ready.st = .idle
    ∧ (Ports.offer 0x0001#16).rst = false ∧ (Ports.offer 0x0001#16).cmdValid = true
    ∧ (Ports.offer 0x0001#16).cmdWord = 0x0001#16 := by decide
theorem witness_CommandFrame : (∃ t, exec (.line 4) ready = .next t) ∧ (∃ t, exec .nop ready = .next t)
    ∧ ∃ t, exec (.delay 1) ready = .next t := ⟨⟨_, rfl⟩, ⟨_, rfl⟩, ⟨_, rfl⟩⟩
theorem witness_LineActsAsXferC : ready.cfg.valid = true ∧ (1 ≤ 4 ∧ 4 ≤ 4) ∧ NoReset (quiet 6)
    ∧ (quiet 6).length ≤ ready.cfg.transferCycles := ⟨by decide, by decide, quiet_noReset 6, by decide⟩
theorem witness_TransferWaveform : toyReady.cfg.valid = true ∧ toyReady.e = false ∧ NoReset (quiet 13)
    ∧ (quiet 13).length < 4 * toyReady.cfg.nSettle + 2 * toyReady.cfg.nPulse :=
  ⟨by decide, by decide, quiet_noReset 13, by decide⟩
theorem witness_CommandDurations : (Instr.delay 5).wf = true ∧ EngineInv ready ∧ ready.st = .idle
    ∧ (∀ k, NoReset (quiet k)) ∧ (quiet 4).length < 5 * ready.cfg.nUnit ∧ (quiet 5).length = 5 * ready.cfg.nUnit
    ∧ EngineInv State.reset ∧ State.reset.st = .boot ∧ (∀ k, NoReset (.quiet :: quiet k))
    ∧ (quiet 35).length < State.reset.cfg.nPowerup + 6 * State.reset.cfg.transferCycles
    ∧ (quiet 36).length = State.reset.cfg.nPowerup + 6 * State.reset.cfg.transferCycles
    ∧ (Ports.offer 0x5000#16).rst = false ∧ (Ports.offer 0x5000#16).cmdValid = true
    ∧ decode (Ports.offer 0x5000#16).cmdWord = .reserved .opcode :=
  ⟨by decide, ready_inv, by decide, quiet_noReset, by decide, by decide, reset_inv, by decide,
    fun k => quiet_noReset (k + 1), by decide, by decide, by decide, by decide, by decide⟩
theorem witness_CyclesAreCeilings : 0 < Config.pToy.tClear.den ∧ 0 < Config.pToy.fClk.den := by decide
theorem witness_BringUpCompletes : State.reset.cfg.valid = true ∧ State.reset.st = .boot ∧ (∀ k, NoReset (quiet k))
    ∧ 1 ≤ (quiet 1).length ∧ (quiet 36).length < 1 + State.reset.cfg.nPowerup + 6 * State.reset.cfg.transferCycles
    ∧ (quiet 1).length = 1 + State.reset.cfg.nPowerup + 0 * State.reset.cfg.transferCycles
    ∧ (quiet 31).length = 1 + State.reset.cfg.nPowerup + 5 * State.reset.cfg.transferCycles
    ∧ (quiet 37).length = 1 + State.reset.cfg.nPowerup + 6 * State.reset.cfg.transferCycles
    ∧ ({ Config.pRef with tPowerup := ⟨40, 1000⟩ } : Config).valid = true
    ∧ (quiet 40).length < 1 + ({ Config.pRef with tPowerup := ⟨40, 1000⟩ } : Config).nPowerup :=
  ⟨by decide, by decide, quiet_noReset, by decide, by decide, by decide, by decide, by decide, by decide, by decide⟩
theorem witness_PhaseLastsItsCount : (busyWith toyReady (.xferC 0x28) 0).st = .nib
    ∧ (busyWith toyReady (.xferC 0x28) 0).cnt = (quiet 2).length ∧ (busyWith ready (.delay 5) 0).st = .wait
    ∧ (busyWith ready (.delay 5) 0).cnt = (quiet 5).length ∧ (∀ k, NoReset (quiet k))
    ∧ EngineInv (busyWith ready (.delay 5) 0) :=
  ⟨by decide, by decide, by decide, by decide, quiet_noReset, busyWith_inv _ _ rfl⟩
theorem witness_PhaseEndRules :
    (∀ k ∈ [0, 1, 2, 5], (busyWith ready (.xferD 0x41) k).st = .nib ∧ (busyWith ready (.xferD 0x41) k).cnt ≤ 1)
    ∧ (busyWith ready (.xferD 0x41) 0).ph = .pre ∧ (busyWith ready (.xferD 0x41) 1).ph = .pulse
    ∧ (busyWith ready (.xferD 0x41) 2).ph = .post ∧ (busyWith ready (.xferD 0x41) 2).half = .hi
    ∧ (busyWith ready (.xferD 0x41) 5).ph = .post ∧ (busyWith ready (.xferD 0x41) 5).half = .lo := by decide
theorem witness_SleepsAreRealized : EngineInv ready
    ∧ (∃ t, edge (.offer 0x4005#16) ready = .next t ∧ t.trace ≠ ready.trace ∧ t.prog = .delay)
    ∧ ∃ t, edge (.offer 0x3000#16) ready = .next t ∧ t.trace ≠ ready.trace ∧ t.prog ≠ .delay :=
  ⟨ready_inv, ⟨_, rfl, by decide⟩, ⟨_, rfl, by decide⟩⟩
theorem witness_GroupsApplyAtOneEdge : (Ports.offer 0x3000#16).rst = false
    ∧ ∃ t, edge (.offer 0x3000#16) ready = .next t := ⟨rfl, _, rfl⟩
theorem witness_CommandRefinesTransaction : (Instr.line 4).wf = true ∧ EngineInv ready ∧ ready.st = .idle
    ∧ NoReset (quiet 6) ∧ (quiet 6).length = instrCycles ready.cfg (.line 4) :=
  ⟨by decide, ready_inv, by decide, quiet_noReset 6, by decide⟩
theorem witness_BringUpRefinesTransaction : EngineInv State.reset ∧ State.reset.st = .boot ∧ NoReset (quiet 37)
    ∧ (quiet 37).length = 1 + initCycles State.reset.cfg := ⟨reset_inv, by decide, quiet_noReset 37, by decide⟩
theorem witness_ResetEdgeValues : Ports.reset.rst = true := rfl
theorem witness_IdleKeepsEverything : Ports.quiet.rst = false ∧ Ports.quiet.cmdValid = false ∧ ready.st = .idle
    ∧ runOver { ready with host := [.levels .quiet] } = true
    ∧ (hostPorts { ready with host := [.levels .quiet] }).rst = false
    ∧ ∃ t, step { ready with host := [.levels .quiet] } = .next t :=
  ⟨by decide, by decide, by decide, by decide, by decide, _, rfl⟩
theorem witness_BusyIgnoresCommandPort : Ports.quiet.rst = false ∧ (Ports.offer 0xFFFF#16).rst = false
    ∧ State.reset.st ≠ .idle := by decide
theorem witness_HeldCommandWaits :
    (∃ t, step { State.reset with host := [.present 0x0000#16] } = .next t) ∧ State.reset.st ≠ .idle
    ∧ (∃ t, step { ready with host := [.present 0x0000#16] } = .next t) ∧ ready.st = .idle :=
  ⟨⟨_, rfl⟩, by decide, ⟨_, rfl⟩, by decide⟩
theorem witness_InvariantKeptByStep : EngineInv (busyWith ready (.xferD 0x41) 5)
    ∧ ∃ t, step (busyWith ready (.xferD 0x41) 5) = .next t := ⟨busyWith_inv _ _ rfl, _, rfl⟩
theorem witness_EngineNeverBlocks : EngineInv State.reset ∧ drivesLine State.reset = false :=
  ⟨reset_inv, by decide⟩
theorem witness_IdleReachedInRemaining : EngineInv State.reset ∧ (∀ k, NoReset (quiet k))
    ∧ (quiet 36).length < remaining State.reset ∧ (quiet 37).length = remaining State.reset :=
  ⟨reset_inv, quiet_noReset, by decide, by decide⟩
theorem witness_NibblePairingKept : EngineInv (busyWith ready (.xferD 0x41) 0) ∧ Paired (busyWith ready (.xferD 0x41) 0)
    ∧ (∃ t, step (busyWith ready (.xferD 0x41) 0) = .next t) ∧ Paired ready ∧ ready.st ≠ .nib :=
  ⟨busyWith_inv _ _ rfl, by unfold Paired; decide, ⟨_, rfl⟩, by unfold Paired; decide, by decide⟩
theorem witness_DataStableAroundEnable :
    (EngineInv ready ∧ ∃ t, edge (.offer 0x1141#16) ready = .next t ∧ t.rs ≠ ready.rs)
    ∧ EngineInv (busyWith ready (.xferD 0x41) 1) ∧ (busyWith ready (.xferD 0x41) 1).e = true
    ∧ ∃ t, edge .quiet (busyWith ready (.xferD 0x41) 1) = .next t ∧ t.e = false :=
  ⟨⟨ready_inv, _, rfl, by decide⟩, busyWith_inv _ _ rfl, by decide, _, rfl, by decide⟩
theorem witness_TimerFitsItsWidth : EngineInv ready ∧ ∃ t, step ready = .next t := ⟨ready_inv, _, rfl⟩
theorem witness_FlagsChangeOnlyAsStated : (∃ t, edge .reset ready = .next t) ∧ Ports.reset.rst = true
    ∧ (∃ t, edge (.offer 0xF000#16) ready = .next t) ∧ (Ports.offer 0xF000#16).rst = false :=
  ⟨⟨_, rfl⟩, rfl, ⟨_, rfl⟩, rfl⟩
theorem witness_OutputEnableRule : State.reset.oe = false ∧ ready.oe = true ∧ EngineInv State.reset
    ∧ (∃ t, edge .quiet State.reset = .next t) ∧ ∃ t, edge .reset ready = .next t :=
  ⟨by decide, by decide, reset_inv, ⟨_, rfl⟩, _, rfl⟩
theorem witness_ConfigurationIsConstant : ∃ t, step State.reset = .next t := ⟨_, rfl⟩
theorem witness_InvalidConfigurationRefused :
    ¬ (45 * ({ Config.pRef with tClear := ⟨1, 10⟩ } : Config).tClear.den
      ≤ 100 * ({ Config.pRef with tClear := ⟨1, 10⟩ } : Config).tClear.num) := by decide
theorem witness_ForeignDriverFaults : ready.cfg.valid = true
    ∧ ({ ready with host := [.foreignDrive .e true] } : State).host = .foreignDrive .e true :: [] := by decide
theorem witness_PaddingRules : "1234567890123456".toList.length ≤ Config.pRef.width
    ∧ Config.pRef.width < "12345678901234567".toList.length := by decide
theorem witness_PaddingExactAndIdempotent : "1234567890123456".toList.length ≤ Config.pRef.width := by decide
theorem witness_WriteAddressesThenSends : (1 ≤ 1 ∧ 1 ≤ 4) ∧ (1 ≤ 4 ∧ 4 ≤ 4)
    ∧ expand { Config.pRef with width := 2 } (.text .left "A".toList none) = .emits [.xferD 0x41, .xferD 0x20] := by decide
theorem witness_TextSendsEveryCharacter : Style.center ≠ .typed
    ∧ pad { Config.pRef with width := 2 } .center "\u00FF".toList = some "\u00FF ".toList
    ∧ ∀ ch ∈ "\u00FF".toList, ch.toNat ≤ 0xFF := ⟨by decide, by decide, by simp⟩
theorem witness_TypedDelayUnits : Config.pRef.valid = true
    ∧ 0 < ((some ⟨5, 1000⟩ : Option Ratio).getD Config.pRef.typedSpeedDefault).den
    ∧ 0 < ((none : Option Ratio).getD Config.pRef.typedSpeedDefault).den := by decide
theorem witness_TypedDelaysFollowNonSpaces : padL { Config.pRef with width := 2 } "A".toList = some "A ".toList
    ∧ ∀ ch ∈ "A".toList, ch.toNat ≤ 0xFF := ⟨by decide, by simp⟩
theorem witness_MessageAddressing :
    (splitLines "A\nB\nC".toList).map (expandText { Config.pRef with width := 1 } .left none)
      = [[Instr.xferD 0x41], [.xferD 0x42], [.xferD 0x43]].map .emits := by decide
theorem witness_BusyWindowDuty : Config.pRef.valid = true ∧ clearUnits Config.pRef ≤ (450#12).toNat
    ∧ (449#12).toNat < clearUnits Config.pRef ∧ 0 < clearUnits Config.pRef
    ∧ ((∃ b, Instr.line 4 = .xferC b) ∨ (∃ b, Instr.line 4 = .xferD b) ∨ (∃ n, Instr.line 4 = .line n)
      ∨ Instr.line 4 = .clear) :=
  ⟨by decide, by decide, by decide, by decide, .inr (.inr (.inl ⟨4, rfl⟩))⟩

end Sys2Proof.Tests
end

/-! PROOFS. The reference configurations (00_scope.md R7, R8): their cycle counts, and that both are valid. -/

namespace Sys2Proof.Config

/-- Boot requirement (1) of 70_reset_and_hazards.md R254, part by part. -/
theorem valid_iff (c : Config) : c.valid = true ↔
    c.ratiosOk = true ∧ (1 ≤ c.nSettle ∧ 1 ≤ c.nPulse ∧ 1 ≤ c.nClear ∧ 1 ≤ c.nUnit)
      ∧ Ratio.leq ⟨45, 100⟩ c.tClear = true ∧ c.maxLoad < 2 ^ c.cntW := by
  simp only [valid, Bool.and_eq_true, decide_eq_true_iff, and_assoc]

@[simp] theorem pRef_nSettle : pRef.nSettle = 1 := rfl
@[simp] theorem pRef_nPulse : pRef.nPulse = 1 := rfl
@[simp] theorem pRef_nClear : pRef.nClear = 450 := rfl
@[simp] theorem pRef_nUnit : pRef.nUnit = 1 := rfl
@[simp] theorem pRef_nPowerup : pRef.nPowerup = 0 := rfl

@[simp] theorem pToy_nSettle : pToy.nSettle = 2 := rfl
@[simp] theorem pToy_nPulse : pToy.nPulse = 3 := rfl
@[simp] theorem pToy_nClear : pToy.nClear = 5 := rfl
@[simp] theorem pToy_nUnit : pToy.nUnit = 1 := rfl
@[simp] theorem pToy_nPowerup : pToy.nPowerup = 0 := rfl

/-- The longest load of `P_REF` is that of `DELAY 4095`, which `CNT_W = 12` just holds. -/
@[simp] theorem pRef_maxLoad : pRef.maxLoad = 4095 := by simp [maxLoad]

/-- The longest load of `P_TOY` is that of `DELAY 4095`, which `CNT_W = 12` just holds. -/
@[simp] theorem pToy_maxLoad : pToy.maxLoad = 4095 := by simp [maxLoad]

theorem pRef_valid : pRef.valid = true := by
  have hfits : pRef.maxLoad < 2 ^ pRef.cntW := by rw [pRef_maxLoad]; decide
  exact (valid_iff pRef).2 ⟨by decide, by simp, by decide, hfits⟩

theorem pToy_valid : pToy.valid = true := by
  have hfits : pToy.maxLoad < 2 ^ pToy.cntW := by rw [pToy_maxLoad]; decide
  exact (valid_iff pToy).2 ⟨by decide, by simp, by decide, hfits⟩

end Sys2Proof.Config

namespace Sys2Proof.Proofs

open Sys2Proof.Config

/-- Settles O48: each count of R8 is the ceiling the model computes, and the counts make both configurations valid. -/
theorem referenceCounts : Obligations.ReferenceCounts :=
  ⟨⟨pRef_valid, pRef_nSettle, pRef_nPulse, pRef_nClear, pRef_nUnit, pRef_nPowerup⟩,
    ⟨pToy_valid, pToy_nSettle, pToy_nPulse, pToy_nClear, pToy_nUnit, pToy_nPowerup⟩⟩

end Sys2Proof.Proofs

/-! PROOFS. What one edge and one step keep: the invariant, the configuration, the host's script, and who writes the
flags and `oe` (10_state.md R23, R32, R33, R38, R39; 41_byte_transfer.md R137). -/

namespace Sys2Proof.Machine

open Safety

/-- Reset has priority over everything (10_state.md R38). -/
theorem edge_of_rst {p : Ports} (h : p.rst = true) (s : State) : edge p s = .next (resetEdge s) := if_pos h

/-- Every edge, with or without reset, keeps the invariant. -/
theorem edge_keeps_inv {p : Ports} {s t : State} (hi : EngineInv s) (h : edge p s = .next t) : EngineInv t := by
  cases hp : p.rst with
  | true =>
    obtain rfl : resetEdge s = t := by simpa [edge_of_rst hp] using h
    exact resetEdge_inv hi.valid
  | false =>
    obtain ⟨u, hu, hinv, -⟩ := edge_inv p hi hp
    obtain rfl : u = t := by simpa [hu] using h
    exact hinv

/-- Every edge keeps what is no register of the engine: the configuration, the host's script and the edge count. -/
theorem edge_keeps_outside {p : Ports} {s t : State} (h : edge p s = .next t) :
    t.cfg = s.cfg ∧ t.host = s.host ∧ t.edgeNo = s.edgeNo := by
  cases hp : p.rst with
  | true =>
    obtain rfl : resetEdge s = t := by simpa [edge_of_rst hp] using h
    exact ⟨rfl, rfl, rfl⟩
  | false =>
    obtain ⟨hcfg, hhost, hno, -⟩ := edge_emits hp h
    exact ⟨hcfg, hhost, hno⟩

/-- The bring-up program begins with a transfer or a wait, so the `BOOT` edge ends busy, whatever the state. -/
theorem bootArm_busy {s t : State} (h : bootArm s = .next t) : t.st ≠ .idle := by
  simp only [bootArm, startProg, microProg, enterFrom] at h
  split at h <;> simp only [Host.Outcome.next.injEq] at h <;> subst h <;> simp

/-- No entry of a micro-program leads to `BOOT`. -/
theorem Entered.not_boot {us : List MicroOp} {s t : State} (h : Entered us s t) : t.st ≠ .boot := by
  rcases h.place with hs | hs | ⟨hs, -⟩ <;> simp [hs]

/-- Only a reset edge leads to `BOOT` (10_state.md R26). -/
theorem edge_not_boot {p : Ports} {s t : State} (hp : p.rst = false) (h : edge p s = .next t) : t.st ≠ .boot := by
  cases edge_cases hp h with
  | stays hs _ ht => subst ht; simp [hs]
  | reserved hs _ _ _ ht => subst ht; simp [hs]
  | accepts _ _ _ _ ht => exact (exec_entered ht).2.not_boot
  | boots _ ht => exact (bootArm_entered ht).not_boot
  | counts hs _ ht => subst ht; rcases hs with hs | hs <;> simp [hs]
  | raises hs _ _ ht => subst ht; simp [hs]
  | lowers hs _ _ ht => subst ht; simp [hs]
  | switches hs _ _ _ ht => subst ht; simp [hs]
  | goesOn _ _ ht => exact (nextOp_entered ht).not_boot

/-- Under the invariant the lines are undriven in `BOOT` and nowhere else (10_state.md R23, R101). -/
theorem oe_eq_not_boot {s : State} (hi : EngineInv s) : s.oe = decide (s.st ≠ .boot) := by
  cases hs : s.st with
  | boot => rw [hi.boot hs]; rfl
  | idle => simpa using (hi.idle hs).2
  | nib => simpa using (hi.nib hs).1
  | wait => simpa using (hi.wait hs).1

/-- The accepted word of an edge is reserved (45_control.md R204). -/
def acceptsReserved (p : Ports) (s : State) : Bool :=
  accepts p s && match decode p.cmdWord with
    | .reserved _ => true
    | .legal _ => false

/-- A busy engine accepts nothing (10_state.md R33). -/
theorem acceptsReserved_busy {s : State} (p : Ports) (h : s.st ≠ .idle) : acceptsReserved p s = false := by
  simp [acceptsReserved, accepts, cmdReady, h]

/-- The flags after an edge without reset, in every state: each is kept or set by its one cause (10_state.md R32). -/
theorem edge_flags {p : Ports} {s t : State} (hp : p.rst = false) (h : edge p s = .next t) :
    t.err = (s.err || acceptsReserved p s)
    ∧ t.initDone = (s.initDone || decide (s.st ≠ .idle ∧ s.prog = .init ∧ t.st = .idle)) := by
  cases edge_cases hp h with
  | stays hs hv ht => subst ht; simp [acceptsReserved, accepts, hv, hs]
  | reserved hs hv _ hd ht => subst ht; simp [acceptsReserved, accepts, cmdReady, hp, hv, hs, hd]
  | accepts hs _ i hd ht =>
    have r := (exec_entered ht).2
    exact ⟨by simp [r.err, acceptsReserved, hd], by simp [r.initDone, hs, progOf_ne_init]⟩
  | boots hs ht =>
    have r := bootArm_entered ht
    exact ⟨by simp [r.err, acceptsReserved_busy, hs], by simp [r.initDone, bootArm_busy ht]⟩
  | counts hs _ ht => subst ht; rcases hs with hs | hs <;> simp [acceptsReserved_busy, hs]
  | raises hs _ _ ht => subst ht; simp [acceptsReserved_busy, hs]
  | lowers hs _ _ ht => subst ht; simp [acceptsReserved_busy, hs]
  | switches hs _ _ _ ht => subst ht; simp [acceptsReserved_busy, hs]
  | goesOn hs _ ht =>
    have r := nextOp_entered ht
    have hb : s.st ≠ .idle := by rcases hs with ⟨hs, -⟩ | hs <;> simp [hs]
    have hinit : t.initDone = (s.initDone || (decide (t.st = .idle) && decide (s.prog = .init))) := r.initDone
    exact ⟨by simp [r.err, acceptsReserved_busy, hb], by rw [hinit, Bool.and_comm]; simp [hb]⟩

/-- A command is accepted exactly when it is offered to an IDLE engine that is not in reset (10_state.md R33). -/
theorem accepts_iff (p : Ports) (s : State) :
    accepts p s = true ↔ p.cmdValid = true ∧ s.st = .idle ∧ p.rst = false := by
  simp [accepts, cmdReady]

theorem hostPorts_present {s : State} {w : Word} {ms : List HostMove} (h : s.host = .present w :: ms) :
    hostPorts s = .offer w := by
  simp [hostPorts, h]

theorem drivesLine_present {s : State} {w : Word} {ms : List HostMove} (h : s.host = .present w :: ms) :
    drivesLine s = false := by
  simp [drivesLine, h]

/-- A word is offered without reset, so whether it is accepted is a matter of `st` alone. -/
theorem accepts_offer (w : Word) (s : State) : accepts (.offer w) s = decide (s.st = .idle) := by
  simp [accepts, cmdReady, Ports.offer]

/-! ### A placed word -/

theorem makeReady_cfg (s : State) : (makeReady s).cfg = s.cfg := by
  unfold makeReady; split <;> rfl

theorem makeReady_st (s : State) : (makeReady s).st = .idle := by
  unfold makeReady; split
  · assumption
  · rfl

/-- A word of the engine's width is placed as it is. -/
theorem withFetchWord_eq (s : State) (w : Word) : s.withFetchWord 16 w.toNat = placeWord w s := by
  rw [State.withFetchWord, Nat.mod_eq_of_lt w.isLt, BitVec.ofNat_toNat, BitVec.setWidth_eq]

/-- A ready engine that is presented a legal word runs the command, and the move is gone (60_exceptions.md R240). -/
theorem step_present {s : State} {w : Word} {i : Instr} {ms : List HostMove} (hv : s.cfg.valid = true)
    (hs : s.st = .idle) (hh : s.host = .present w :: ms) (hd : decode w = .legal i) :
    step s = match exec i s with
      | .next t => .next { t with host := ms, edgeNo := t.edgeNo + 1 }
      | .fault r => .fault r
      | .refused r => .refused r := by
  have he : edge (.offer w) s = exec i s := by simp [edge, Ports.offer, hs, hd]
  simp only [step, hv, if_true, drivesLine_present hh, Bool.false_eq_true, if_false, hostPorts_present hh, he]
  cases hx : exec i s with
  | next t =>
    have hhost : t.host = .present w :: ms := (exec_entered hx).2.outside.1.trans hh
    simp [accepts_offer, hs, afterEdge, hhost, hostAfter]
  | fault r => rfl
  | refused r => rfl

/-! ### The accepting edge -/

/-- `NOP` has nothing but `END` to enter (45_control.md R200). -/
theorem exec_nop (s : State) :
    exec .nop s = .next (enterEnd { latch (encode .nop) s with prog := .nop, pidx := 0#4 }) := rfl

/-- Entering micro-operations with no transfer among them starts no nibble. -/
theorem enterFrom_no_transfer {us : List MicroOp} {s t : State} (hx : ∀ b m, MicroOp.x b m ∉ us)
    (h : enterFrom us s = .next t) : t.st ≠ .nib := by
  induction us generalizing s with
  | nil => simp [enterFrom] at h
  | cons u us ih =>
    have hx' : ∀ b m, MicroOp.x b m ∉ us := fun b m hm => hx b m (List.mem_cons_of_mem _ hm)
    cases u with
    | cfg => exact ih hx' h
    | x b m => exact absurd List.mem_cons_self (hx b m)
    | w n r =>
      simp only [enterFrom] at h
      split at h
      · exact ih hx' h
      · simp only [Host.Outcome.next.injEq] at h; subst h; simp
    | fin =>
      simp only [enterFrom, Host.Outcome.next.injEq] at h; subst h; simp

/-- NOP and DELAY start no transfer (45_control.md R200, R202). -/
theorem exec_control_not_nib {i : Instr} {s t : State} (hi : i = .nop ∨ ∃ k, i = .delay k)
    (h : exec i s = .next t) : t.st ≠ .nib := by
  rw [exec_eq_start (exec_entered h).1] at h
  refine enterFrom_no_transfer (fun b m => ?_) h
  rcases hi with rfl | ⟨k, rfl⟩ <;> simp [microProg, progOf]

/-- A command neither configures the lines nor ends a bring-up program, so its accepting edge writes none of `oe`, `e`
and the flags (10_state.md R32, R101). -/
theorem exec_keeps {i : Instr} {s t : State} (h : exec i s = .next t) :
    t.cfg = s.cfg ∧ t.host = s.host ∧ t.edgeNo = s.edgeNo ∧ t.oe = s.oe ∧ t.e = s.e ∧ t.initDone = s.initDone
    ∧ t.err = s.err := by
  have r := (exec_entered h).2
  exact ⟨r.cfg, r.outside.1, r.outside.2, r.oeKept (microProg_noCfg (progOf_ne_init i)), r.enable,
    by simp [r.initDone, progOf_ne_init], r.err⟩

end Sys2Proof.Machine

/-! PROOFS. A micro-program from its entry to `END` does to the transaction-level registers what its event list does
(10_state.md R40, 20_memory.md R61, 30_encoding.md R80, 41_byte_transfer.md R140). -/

namespace Sys2Proof.Machine

open Safety

/-- The events of a micro-operation (30_encoding.md R81). -/
def opEvents (c : Config) : MicroOp → List Event
  | .cfg => cfgEvents
  | .x b m => xfer c b m
  | .w n t => sleepIf n t
  | .fin => []

/-- The events of a list of micro-operations. -/
def opsEvents (c : Config) (us : List MicroOp) : List Event := us.flatMap (opEvents c)

/-- The registers of R40 at the end of micro-operations entered in `s`: their events applied, and `init_done` set if the
program is the bring-up one (40_init_sequencer.md R104). -/
def tlAfter (us : List MicroOp) (s : State) : TLState :=
  { s.tl.emit (opsEvents s.cfg us) with initDone := s.initDone || decide (s.prog = .init) }

theorem emit_append (xs ys : List Event) (t : TLState) : t.emit (xs ++ ys) = (t.emit xs).emit ys := by
  simp [TLState.emit, TLState.lines]

/-- What the later micro-operations do goes on from what the first has done. -/
theorem tlAfter_cons {u : MicroOp} {us : List MicroOp} {s q : State} (hc : q.cfg = s.cfg) (hp : q.prog = s.prog)
    (ht : q.tl = s.tl.emit (opEvents s.cfg u)) : tlAfter us q = tlAfter (u :: us) s := by
  have hd : q.initDone = s.initDone := congrArg TLState.initDone ht
  simp only [tlAfter, ht, hc, hp, hd, opsEvents, List.flatMap_cons, emit_append]

/-- The rest of a micro-program stands at `pidx`, as `enterFrom` is given it (10_state.md R27). -/
structure StandsAt (us : List MicroOp) (s : State) : Prop where
  rest : (microProg s).drop s.pidx.toNat = us
  ends : EndsOnce us

/-- An entered micro-operation has an index of the program, so the index after it does not wrap (10_state.md R35). -/
theorem StandsAt.pidx_lt {u : MicroOp} {us : List MicroOp} {s : State} (h : StandsAt (u :: us) s) :
    s.pidx.toNat + 1 < 16 := by
  have hlen := congrArg List.length h.rest
  have := microProg_length s
  simp only [List.length_drop, List.length_cons] at hlen
  omega

theorem StandsAt.drop_succ {u : MicroOp} {us : List MicroOp} {s : State} (h : StandsAt (u :: us) s) :
    (microProg s).drop (s.pidx.toNat + 1) = us := by
  rw [← List.drop_drop, h.rest]
  rfl

/-- After a micro-operation that is not `END` the program stands at the next one, in every state with the same program
and index. -/
theorem StandsAt.next {u : MicroOp} {us : List MicroOp} {s q : State} (h : StandsAt (u :: us) s) (hu : u ≠ .fin)
    (hm : microProg q = microProg s) (hp : q.pidx = s.pidx) : StandsAt us (nextIdx q) where
  rest := by
    have hlt := h.pidx_lt
    have hidx : (nextIdx q).pidx.toNat = s.pidx.toNat + 1 := by
      simp only [nextIdx_pidx, hp, BitVec.toNat_add, BitVec.toNat_ofNat]
      omega
    rw [hidx, microProg_nextIdx, hm, h.drop_succ]
  ends := by
    have := h.ends
    cases u <;> simp_all [EndsOnce]

/-- `next()` enters what stands after the current micro-operation. -/
theorem StandsAt.nextOp_eq {u : MicroOp} {us : List MicroOp} {s q : State} (h : StandsAt (u :: us) s)
    (hm : microProg q = microProg s) (hp : q.pidx = s.pidx) : nextOp q = enterFrom us (nextIdx q) :=
  Machine.nextOp_eq _ us (congrArg (·.toNat + 1) hp) h.pidx_lt (hm ▸ h.drop_succ)

/-- The transaction-level registers after a whole byte transfer (41_byte_transfer.md R121). -/
theorem transferEnd_tl (b : Byte) (m : Bool) (s : State) : (transferEnd b m s).tl = s.tl.emit (xfer s.cfg b m) := by
  simp [State.tl, TLState.emit, TLState.lines, transferEnd]

/-- Entering the rest of a micro-program and running its cycles without reset ends IDLE, with the events of its
micro-operations applied. -/
theorem run_ops {us : List MicroOp} {s : State} {ps : List Ports} (hv : s.cfg.valid = true) (hat : StandsAt us s)
    (hr : NoReset ps) (hl : ps.length = opsCycles s.cfg us) :
    ∃ t, andThen (enterFrom us s) (runEdges ps) = .next t ∧ t.st = .idle ∧ t.tl = tlAfter us s := by
  induction us generalizing s ps with
  | nil => exact hat.ends.elim
  | cons u us ih =>
    cases u with
    | cfg =>
      have hl' : ps.length = opsCycles s.cfg us := by simpa [opsCycles, opCycles] using hl
      obtain ⟨t, hrun, hst, htl⟩ := ih (s := nextIdx (enterCfg s)) hv
        (hat.next (by simp) (microProg_enterCfg s) rfl) hr hl'
      exact ⟨t, hrun, hst, htl.trans (tlAfter_cons rfl rfl rfl)⟩
    | x b m =>
      obtain ⟨qs, rs, rfl, hq, hrs, hnq, hnr⟩ := split_edges hl hr
      have hm : microProg (transferEnd b m s) = microProg s := microProg_congr rfl rfl rfl rfl rfl rfl
      obtain ⟨t, hrun, hst, htl⟩ := ih (s := nextIdx (transferEnd b m s)) hv (hat.next (by simp) hm rfl) hnr hrs
      refine ⟨t, ?_, hst, htl.trans (tlAfter_cons rfl rfl (transferEnd_tl b m s))⟩
      rw [← hrun, ← hat.nextOp_eq hm rfl, ← run_transfer hv hnq hq, ← runEdges_append]
      rfl
    | w n r =>
      by_cases hn : n = 0
      · have hl' : ps.length = opsCycles s.cfg us := by simpa [opsCycles, opCycles, hn] using hl
        obtain ⟨t, hrun, hst, htl⟩ := ih (s := nextIdx s) hv (hat.next (by simp) rfl rfl) hr hl'
        refine ⟨t, by simpa [enterFrom, hn] using hrun, hst, htl.trans (tlAfter_cons rfl rfl ?_)⟩
        simp [opEvents, sleepIf, hn, TLState.emit, TLState.lines, State.tl]
      · obtain ⟨qs, rs, rfl, hq, hrs, hnq, hnr⟩ := split_edges hl hr
        have hm : microProg (lastCycle (enterW n r s)) = microProg s := by simp
        obtain ⟨t, hrun, hst, htl⟩ := ih (s := nextIdx (lastCycle (enterW n r s))) hv
          (hat.next (by simp) hm rfl) hnr hrs
        refine ⟨t, ?_, hst, htl.trans (tlAfter_cons rfl rfl ?_)⟩
        · rw [← hrun, ← hat.nextOp_eq hm rfl,
            ← run_wait (s := enterW n r s) hnq rfl hq (Nat.pos_of_ne_zero hn), ← runEdges_append]
          simp [enterFrom, hn]
        · simp [opEvents, sleepIf, hn, TLState.emit, TLState.lines, State.tl, Lines.apply]
    | fin =>
      obtain rfl : us = [] := hat.ends
      obtain rfl : ps = [] := List.length_eq_zero_iff.mp hl
      exact ⟨enterEnd s, rfl, rfl, by simp [tlAfter, opsEvents, opEvents, TLState.emit, TLState.lines, State.tl]⟩

/-- A program that has just been set stands at its beginning. -/
theorem standsAt_start {s : State} (h : s.pidx = 0#4) : StandsAt (microProg s) s where
  rest := by simp [h]
  ends := microProg_endsOnce s

/-- The state in which a command's micro-program is entered: operands latched, `prog` and `pidx` set
(30_encoding.md R77). -/
def startOf (i : Instr) (s : State) : State := { latch (encode i) s with prog := progOf i, pidx := 0#4 }

/-- The micro-program of a command takes the command's duration (70_reset_and_hazards.md R270). -/
theorem opsCycles_startOf (i : Instr) (s : State) :
    opsCycles s.cfg (microProg (startOf i s)) = instrCycles s.cfg i := by
  cases i <;> simp [startOf, progOf, microProg, opsCycles, opCycles, instrCycles]
  case clear => omega

/-- The micro-program of a command makes the command's event list (30_encoding.md R80; 41_byte_transfer.md R124, R125;
42_line_addressing.md R150; 44_clear.md R190; 45_control.md R202). -/
theorem opsEvents_startOf {i : Instr} {s : State} (hv : s.cfg.valid = true) :
    opsEvents s.cfg (microProg (startOf i s)) = instrEvents s.cfg i := by
  have hclear : s.cfg.nClear ≠ 0 := Nat.one_le_iff_ne_zero.mp (valid_nClear hv)
  have hunit : s.cfg.nUnit ≠ 0 := Nat.one_le_iff_ne_zero.mp (valid_nUnit hv)
  cases i with
  | nop => rfl
  | xferC b => simp [startOf, progOf, microProg, opsEvents, opEvents, instrEvents]
  | xferD b => simp [startOf, progOf, microProg, opsEvents, opEvents, instrEvents]
  | line n => simp [startOf, progOf, microProg, opsEvents, opEvents, instrEvents, lineBase]
  | clear => simp [startOf, progOf, microProg, opsEvents, opEvents, instrEvents, sleepIf, hclear]
  | delay k => simp [startOf, progOf, microProg, opsEvents, opEvents, instrEvents, sleepIf, hunit]

end Sys2Proof.Machine

/-! PROOFS. The integer formula of a cycle count is the ceiling of the rational product (10_state.md R31). -/

namespace Sys2Proof

theorem Ratio.ceilMul_eq_ceil {a b : Ratio} (ha : 0 < a.den) (hb : 0 < b.den) :
    a.ceilMul b = ⌈(a.num : ℚ) / a.den * ((b.num : ℚ) / b.den)⌉₊ := by
  have hden : 0 < a.den * b.den := Nat.mul_pos ha hb
  refine eq_of_forall_ge_iff fun n => ?_
  calc a.ceilMul b ≤ n
      ↔ a.num * b.num ≤ a.den * b.den * n := ceilDiv_le_iff_le_mul (b := a.num * b.num) hden
    _ ↔ ((a.num * b.num : ℕ) : ℚ) / (a.den * b.den : ℕ) ≤ n := by
      rw [div_le_iff₀' (by exact_mod_cast hden)]; exact_mod_cast Iff.rfl
    _ ↔ ⌈(a.num : ℚ) / a.den * ((b.num : ℚ) / b.den)⌉₊ ≤ n := by
      rw [Nat.ceil_le, div_mul_div_comm]; push_cast; rfl

end Sys2Proof

/-! PROOFS. The statements of 10_state.md. -/

namespace Sys2Proof.Proofs

open Sys2Proof.Machine Sys2Proof.Machine.Safety

/-- Settles O37: the edge keeps the invariant, and what a step adds around the edge is no part of it. -/
theorem invariantKeptByStep : Obligations.InvariantKeptByStep := by
  intro s t hi h
  obtain ⟨-, -, u, hu, rfl⟩ := step_next h
  exact afterEdge_inv (edge_keeps_inv hi hu)

/-- Settles O18, from what entering a micro-program keeps; NOP and DELAY hold no transfer. -/
theorem commandFrame : Obligations.CommandFrame := by
  intro i s t h
  obtain ⟨hcfg, hhost, hno, hoe, he, hinit, herr⟩ := exec_keeps h
  have r := (exec_entered h).2
  obtain ⟨evs, hevs, -⟩ := r.emits
  refine ⟨hcfg, hhost, hno, hoe, he, hinit, herr, ⟨evs, hevs⟩,
    fun hi => r.datapath (exec_control_not_nib hi h), ?_⟩
  rintro rfl
  rw [exec_nop, Host.Outcome.next.injEq] at h
  subst h
  exact ⟨rfl, rfl⟩

/-- Settles O22: the count is an integer ceiling division, which is the ceiling of the rational quotient. -/
theorem cyclesAreCeilings : Obligations.CyclesAreCeilings :=
  fun _ _ ht hf => Ratio.ceilMul_eq_ceil ht hf

/-- Settles O28: a command's micro-program, run to its end, applies the command's event list. -/
theorem commandRefinesTransaction : Obligations.CommandRefinesTransaction := by
  intro i s ps hw hi _ hr hl
  obtain ⟨t, hrun, hst, htl⟩ := run_ops (s := startOf i s) hi.valid (standsAt_start rfl) hr
    (hl.trans (opsCycles_startOf i s).symm)
  refine ⟨t, by rw [exec_eq_start hw]; exact hrun, hst, htl.trans ?_⟩
  have hcmd : (startOf i s).prog ≠ .init := progOf_ne_init i
  have hevs : opsEvents (startOf i s).cfg (microProg (startOf i s)) = instrEvents s.cfg i := opsEvents_startOf hi.valid
  simp only [tlAfter, hevs, hcmd, decide_false, Bool.or_false]
  rfl

/-- Settles O36: the outputs are R33's, and the move goes exactly when the word is accepted. -/
theorem heldCommandWaits : Obligations.HeldCommandWaits := by
  refine ⟨fun p s => ⟨by simp [cmdReady], rfl, accepts_iff p s⟩, ?_⟩
  intro s t w ms hh h
  obtain ⟨-, -, u, hu, rfl⟩ := step_next h
  have hhost : u.host = .present w :: ms := (edge_keeps_outside hu).2.1.trans hh
  rw [hostPorts_present hh, accepts_offer, afterEdge_host, hhost]
  exact ⟨fun hs => by simp [hostAfter, hs], fun hs => by simp [hostAfter, hs]⟩

/-- Settles O43: the reset edge clears both flags, and any other edge sets each by its one cause. -/
theorem flagsChangeOnlyAsStated : Obligations.FlagsChangeOnlyAsStated := by
  intro p s t h
  refine ⟨fun hp => ?_, fun hp => edge_flags hp h⟩
  obtain rfl : resetEdge s = t := by simpa [edge_of_rst hp] using h
  exact ⟨rfl, rfl⟩

/-- Settles O44: under the invariant `oe` is 0 in `BOOT` only, and an edge without reset leaves `BOOT`. -/
theorem outputEnableRule : Obligations.OutputEnableRule := by
  refine ⟨fun s l hoe => by simp [controllerLevel, driven, hoe],
    fun s hoe => by simp [driven, latchLevel, hoe], rfl, ?_⟩
  intro p s t h
  refine ⟨fun hp => ?_, fun hp hi => ?_⟩
  · obtain rfl : resetEdge s = t := by simpa [edge_of_rst hp] using h
    rfl
  · rw [oe_eq_not_boot hi, oe_eq_not_boot (edge_keeps_inv hi h)]
    cases hs : s.st <;> simp [edge_not_boot hp h]

/-- Settles O8: the placed word stands first in the script of a ready engine, so the next step accepts it. -/
theorem placedWordRunsNext : Obligations.PlacedWordRunsNext := by
  intro s w i hv hd
  rw [withFetchWord_eq]
  exact step_present (s := placeWord w s) ((makeReady_cfg s).symm ▸ hv) (makeReady_st s) rfl hd

/-- Settles O32: reset comes before every other arm of the edge function. -/
theorem resetEdgeValues : Obligations.ResetEdgeValues := by
  intro p s hp
  refine ⟨resetEdge s, edge_of_rst hp s, ?_⟩
  simp

/-- Settles O33: the reset state is the state of a reset edge, so it meets the invariant as every such state does. -/
theorem resetStateIsReset : Obligations.ResetStateIsReset :=
  ⟨rfl, rfl, resetEdge_inv (s := State.reset) Config.pRef_valid, rfl,
    fun _ s hp => ⟨resetEdge s, edge_of_rst hp s, rfl, rfl, rfl⟩⟩

/-- Settles O45: neither an edge nor what a step adds around it writes the configuration. -/
theorem configurationIsConstant : Obligations.ConfigurationIsConstant := by
  intro s t h
  obtain ⟨-, -, u, hu, rfl⟩ := step_next h
  exact (edge_keeps_outside hu).1

end Sys2Proof.Proofs

/-! PROOFS. The pairing of Enable pulses and the run to completion (20_memory.md R52, R55). -/

namespace Sys2Proof.Machine

open Safety

theorem paired_iff_of_not_nib {s : State} (hs : s.st ≠ .nib) : Paired s ↔ pulses s.trace % 2 = 0 := by
  simp [Paired, hs]

/-- Within a transfer the pulses are even in number before the high nibble's own and from the low nibble's on. -/
theorem paired_iff_of_nib {s : State} (hs : s.st = .nib) :
    Paired s ↔ pulses s.trace % 2 = if (s.half = .hi ↔ s.ph = .pre) then 0 else 1 := by
  cases hh : s.half <;> cases hp : s.ph <;> simp [Paired, hs, hh, hp]

/-- Entering a micro-program sends no pulse and begins at most a high nibble, so an even count leaves the pulses
paired. -/
theorem Entered.paired {us : List MicroOp} {s t : State} (h : Entered us s t) (heven : pulses s.trace % 2 = 0) :
    Paired t := by
  obtain ⟨evs, htrace, hnone, -⟩ := h.emits
  have hcount : pulses t.trace % 2 = 0 := by rw [htrace, pulses_append, hnone]; exact heven
  rcases h.place with hs | hs | ⟨hs, hhalf, hph, -⟩
  · exact (paired_iff_of_not_nib (by simp [hs])).2 hcount
  · exact (paired_iff_of_not_nib (by simp [hs])).2 hcount
  · simpa [paired_iff_of_nib hs, hhalf, hph] using hcount

/-- An edge without reset keeps the pairing, in every state: it sends a pulse only where it leaves `PRE`. -/
theorem edge_keeps_paired {p : Ports} {s t : State} (hp : p.rst = false) (hpair : Paired s)
    (h : edge p s = .next t) : Paired t := by
  have even_of_not_nib : s.st ≠ .nib → pulses s.trace % 2 = 0 := fun hs => (paired_iff_of_not_nib hs).1 hpair
  cases edge_cases hp h with
  | stays _ _ ht => exact ht ▸ hpair
  | reserved _ _ _ _ ht => subst ht; exact hpair
  | accepts hs _ _ _ ht => exact (exec_entered ht).2.paired (even_of_not_nib (by simp [hs]))
  | boots hs ht => exact (bootArm_entered ht).paired (even_of_not_nib (by simp [hs]))
  | counts _ _ ht => subst ht; exact hpair
  | raises hs _ hph ht =>
    subst ht
    have hpulse : pulses (raiseEnable s).trace = pulses s.trace + 1 := by simp [pulses]
    rw [paired_iff_of_nib hs, hph] at hpair
    rw [paired_iff_of_nib (by simpa using hs), hpulse]
    cases hh : s.half <;> simp [hh] at hpair ⊢ <;> omega
  | lowers hs _ hph ht =>
    subst ht
    have hpulse : pulses (lowerEnable s).trace = pulses s.trace := by simp [pulses]
    rw [paired_iff_of_nib (by simpa using hs), hpulse]
    simpa [paired_iff_of_nib hs, hph] using hpair
  | switches hs _ hph hh ht =>
    subst ht
    have hpulse : pulses (lowNibble s).trace = pulses s.trace := by
      rw [lowNibble_trace, pulses_append, pulses_append, pulses_dataEvents]; rfl
    rw [paired_iff_of_nib (by simpa using hs), hpulse]
    simpa [paired_iff_of_nib hs, hph, hh] using hpair
  | goesOn hs _ ht =>
    refine (nextOp_entered ht).paired ?_
    rcases hs with ⟨hs, hph, hh⟩ | hs
    · simpa [paired_iff_of_nib hs, hph, hh] using hpair
    · exact even_of_not_nib (by simp [hs])

/-- The trace is empty after reset (10_state.md R40). -/
theorem resetEdge_paired (s : State) : Paired (resetEdge s) := rfl

/-- Under the invariant a busy engine has at least one cycle to go. -/
theorem remaining_eq_zero_iff {s : State} (hi : EngineInv s) : remaining s = 0 ↔ s.st = .idle := by
  cases hs : s.st with
  | boot => simp [remaining, hs]
  | idle => simp [remaining, hs]
  | nib =>
    obtain ⟨-, hcnt, -⟩ := hi.nib hs
    simp only [remaining, hs, reduceCtorEq, iff_false]
    omega
  | wait =>
    obtain ⟨-, hcnt, -⟩ := hi.wait hs
    simp only [remaining, hs, reduceCtorEq, iff_false]
    omega

/-- Up to the entry of `IDLE` every edge without reset takes exactly one cycle off those that remain. -/
theorem run_remaining {ps : List Ports} {s : State} (hi : EngineInv s) (hr : NoReset ps)
    (hl : ps.length ≤ remaining s) :
    ∃ t, runEdges ps s = .next t ∧ EngineInv t ∧ remaining t + ps.length = remaining s := by
  induction ps generalizing s with
  | nil => exact ⟨s, rfl, hi, rfl⟩
  | cons p ps ih =>
    obtain ⟨hp, hps⟩ := noReset_cons.mp hr
    rw [List.length_cons] at hl ⊢
    have hbusy : s.st ≠ .idle := fun hs => by
      have := (remaining_eq_zero_iff hi).2 hs
      omega
    obtain ⟨u, hedge, hu, hrem⟩ := edge_inv p hi hp
    have hone := hrem hbusy
    obtain ⟨t, hrun, ht, hrest⟩ := ih hu hps (by omega)
    exact ⟨t, by rw [runEdges_cons, hedge, andThen_next, hrun], ht, by omega⟩

end Sys2Proof.Machine

/-! PROOFS. The statements of 20_memory.md. -/

namespace Sys2Proof.Proofs

open Sys2Proof.Machine Sys2Proof.Machine.Safety

/-- Settles O40: a reset edge empties the trace, every other edge keeps the pairing, and what a step adds around the
edge is no part of it. -/
theorem nibblePairingKept : Obligations.NibblePairingKept := by
  refine ⟨fun s t _ hpair h => ?_, fun s hpair hs => (paired_iff_of_not_nib hs).1 hpair⟩
  obtain ⟨-, -, u, hu, rfl⟩ := step_next h
  show Paired u
  cases hp : (hostPorts s).rst with
  | true =>
    obtain rfl : resetEdge s = u := by simpa [edge_of_rst hp] using hu
    exact resetEdge_paired s
  | false => exact edge_keeps_paired hp hpair hu

/-- Settles O39: the edges are taken off the remaining cycles, which are 0 in `IDLE` only. -/
theorem idleReachedInRemaining : Obligations.IdleReachedInRemaining := by
  intro s ps hi hr
  refine ⟨fun hlt => ?_, fun heq => ?_⟩
  · obtain ⟨t, hrun, ht, hrest⟩ := run_remaining hi hr hlt.le
    exact ⟨t, hrun, mt (remaining_eq_zero_iff ht).2 (by omega)⟩
  · obtain ⟨t, hrun, ht, hrest⟩ := run_remaining hi hr heq.le
    exact ⟨t, hrun, (remaining_eq_zero_iff ht).1 (by omega)⟩

/-- Settles O35: without reset only the `IDLE` arm of the edge function reads the port. -/
theorem busyIgnoresCommandPort : Obligations.BusyIgnoresCommandPort := by
  intro p q s hp hq hbusy
  cases hs : s.st with
  | idle => exact absurd hs hbusy
  | boot => simp [edge, hp, hq, hs]
  | nib => simp [edge, hp, hq, hs]
  | wait => simp [edge, hp, hq, hs]

/-- Settles O49: each entry is read off `P_REF`. -/
theorem sourceConstants : Obligations.SourceConstants := by
  unfold Obligations.SourceConstants
  decide

end Sys2Proof.Proofs

/-! PROOFS. The decoder and the encoder are inverse to each other, and the decoder read row by row and group by group
(30_encoding.md R71, R73, R75, R76). -/

namespace Sys2Proof

/-! ### The fields of an encoded command -/

@[simp] theorem wordOp_xferC (b : Byte) : wordOp (encode (.xferC b)) = 1#4 :=
  BitVec.extractLsb'_append_eq_of_le (by decide)

@[simp] theorem wordOp_xferD (b : Byte) : wordOp (encode (.xferD b)) = 1#4 :=
  BitVec.extractLsb'_append_eq_of_le (by decide)

@[simp] theorem wordOp_line (n : Nat) : wordOp (encode (.line n)) = 2#4 :=
  (BitVec.extractLsb'_append_eq_of_le (by decide)).trans (BitVec.extractLsb'_append_eq_of_le (by decide))

@[simp] theorem xferZeros_xferC (b : Byte) : (encode (.xferC b)).extractLsb' 9 3 = 0#3 :=
  BitVec.extractLsb'_append_eq_of_le (by decide)

@[simp] theorem xferZeros_xferD (b : Byte) : (encode (.xferD b)).extractLsb' 9 3 = 0#3 :=
  BitVec.extractLsb'_append_eq_of_le (by decide)

@[simp] theorem lineZeros_line (n : Nat) : (encode (.line n)).extractLsb' 10 2 = 0#2 :=
  (BitVec.extractLsb'_append_eq_of_le (by decide)).trans (BitVec.extractLsb'_append_eq_of_le (by decide))

@[simp] theorem wordData_line (n : Nat) : wordData (encode (.line n)) = 0#8 := extract_low _ _

theorem lineNumber_lineField {n : Nat} (h : (Instr.line n).wf = true) : lineNumber (lineField n) = n := by
  have hn : 1 ≤ n ∧ n ≤ 4 := of_decide_eq_true h
  rw [lineNumber, lineField, BitVec.toNat_ofNat]
  omega

theorem lineField_lineNumber (l : BitVec 2) : lineField (lineNumber l) = l := by
  simp [lineField, lineNumber]

/-! ### Decoding an encoded command, and encoding a decoded word -/

theorem decode_encode {i : Instr} (h : i.wf = true) : decode (encode i) = .legal i := by
  cases i with
  | nop => decide
  | xferC b => simp [decode]
  | xferD b => simp [decode]
  | line n => simp [decode, lineNumber_lineField h]
  | clear => decide
  | delay c => simp [decode]

/-- A word is its high field, whatever that is known to be, before its low field. -/
theorem append_low {m n : Nat} {a : BitVec m} {w : BitVec (m + n)} (h : w.extractLsb' n m = a) :
    a ++ w.extractLsb' 0 n = w := by
  rw [← h]
  exact BitVec.extractLsb'_append_extractLsb'

/-- The fields `OP`, `w[11:9]` and `M` fix the high byte of a transfer's word. -/
theorem highByte_of_xfer {w : Word} (hop : wordOp w = 1#4) (hzero : w.extractLsb' 9 3 = 0#3) :
    w.extractLsb' 8 8 = if wordM w then 0x11#8 else 0x10#8 := by
  have hop' : w.toNat / 4096 % 16 = 1 := (field_toNat w 12 4).symm.trans (congrArg BitVec.toNat hop)
  have hzero' : w.toNat / 512 % 8 = 0 := (field_toNat w 9 3).symm.trans (congrArg BitVec.toNat hzero)
  apply BitVec.eq_of_toNat_eq
  rw [field_toNat, wordM_eq]
  by_cases hm : w.toNat / 256 % 2 = 1 <;> simp [hm] <;> omega

/-- The fields `OP` and `w[11:10]` fix the high byte of a `LINE` word up to `L`. -/
theorem highByte_of_line {w : Word} (hop : wordOp w = 2#4) (hzero : w.extractLsb' 10 2 = 0#2) :
    w.extractLsb' 8 8 = 0b001000#6 ++ wordL w := by
  have hop' : w.toNat / 4096 % 16 = 2 := (field_toNat w 12 4).symm.trans (congrArg BitVec.toNat hop)
  have hzero' : w.toNat / 1024 % 4 = 0 := (field_toNat w 10 2).symm.trans (congrArg BitVec.toNat hzero)
  apply BitVec.eq_of_toNat_eq
  rw [toNat_concat, wordL, field_toNat, field_toNat]
  simp
  omega

/-- No bit of a legal word is dropped. The cases are the decoder's legal answers in its own order: NOP, XFER.D, XFER.C,
LINE, CLEAR, DELAY. -/
theorem encode_of_decode {w : Word} {i : Instr} (h : decode w = .legal i) : encode i = w := by
  unfold decode at h
  split_ifs at h <;> simp only [Decoded.legal.injEq] at h <;> subst h
  case pos hw => exact hw.symm
  case pos hop hzero hm => exact append_low (by simpa [hm] using highByte_of_xfer hop hzero)
  case neg hop hzero hm => exact append_low (by simpa [hm] using highByte_of_xfer hop hzero)
  case pos hop hrest =>
    obtain ⟨hzero, hdata : wordData w = 0#8⟩ := hrest
    show 0b001000#6 ++ lineField (lineNumber (wordL w)) ++ 0x00#8 = w
    rw [lineField_lineNumber, ← hdata]
    exact append_low (highByte_of_line hop hzero)
  case pos hw => exact hw.symm
  case pos hop => exact append_low hop

theorem decode_eq_legal_iff {w : Word} {i : Instr} : decode w = .legal i ↔ i.wf = true ∧ encode i = w :=
  ⟨fun h => ⟨wf_of_decode h, encode_of_decode h⟩, fun ⟨hwf, h⟩ => h ▸ decode_encode hwf⟩

theorem decode_eq_legal_iff_of_wf {w : Word} {i : Instr} (h : i.wf = true) : decode w = .legal i ↔ encode i = w :=
  decode_eq_legal_iff.trans (and_iff_right h)

/-! ### The rows of the opcode table (30_encoding.md R71) -/

/-- A row whose operand is the whole low field: the mask keeps the high field, and the low field is free. -/
theorem append_eq_iff_mask {m n : Nat} {a : BitVec m} {b : BitVec n} {w : BitVec (m + n)} :
    a ++ b = w ↔ w &&& (BitVec.allOnes m ++ 0#n) = a ++ 0#n ∧ b = w.extractLsb' 0 n := by
  constructor
  · rintro rfl
    exact ⟨Laws.EncodeMatchesRow.mask_high a b, (extract_low a b).symm⟩
  · rintro ⟨hmask, rfl⟩
    have hhigh := congrArg (BitVec.extractLsb' n m) hmask
    rw [BitVec.extractLsb'_and, extract_high, extract_high, BitVec.and_allOnes] at hhigh
    exact append_low hhigh

theorem decode_xferC_iff (w : Word) (b : Byte) :
    decode w = .legal (.xferC b) ↔ w &&& 0xFF00#16 = 0x1000#16 ∧ b = w.extractLsb' 0 8 :=
  (decode_eq_legal_iff_of_wf rfl).trans (append_eq_iff_mask (a := 0x10#8))

theorem decode_xferD_iff (w : Word) (b : Byte) :
    decode w = .legal (.xferD b) ↔ w &&& 0xFF00#16 = 0x1100#16 ∧ b = w.extractLsb' 0 8 :=
  (decode_eq_legal_iff_of_wf rfl).trans (append_eq_iff_mask (a := 0x11#8))

theorem decode_delay_iff (w : Word) (c : BitVec 12) :
    decode w = .legal (.delay c) ↔ w &&& 0xF000#16 = 0x4000#16 ∧ c = w.extractLsb' 0 12 :=
  (decode_eq_legal_iff_of_wf rfl).trans (append_eq_iff_mask (a := 0x4#4))

theorem decode_nop_iff (w : Word) : decode w = .legal .nop ↔ w &&& 0xFFFF#16 = 0x0000#16 := by
  rw [show w &&& 0xFFFF#16 = w from BitVec.and_allOnes]
  exact (decode_eq_legal_iff_of_wf rfl).trans eq_comm

theorem decode_clear_iff (w : Word) : decode w = .legal .clear ↔ w &&& 0xFFFF#16 = 0x3000#16 := by
  rw [show w &&& 0xFFFF#16 = w from BitVec.and_allOnes]
  exact (decode_eq_legal_iff_of_wf rfl).trans eq_comm

theorem decode_line_iff (w : Word) (n : Nat) :
    decode w = .legal (.line n) ↔ w &&& 0xFCFF#16 = 0x2000#16 ∧ n = (w.extractLsb' 8 2).toNat + 1 := by
  constructor
  · intro h
    obtain ⟨hwf, rfl⟩ := decode_eq_legal_iff.1 h
    exact ⟨Laws.EncodeMatchesRow.line n hwf,
      (lineNumber_lineField hwf).symm.trans (congrArg lineNumber (wordL_line n).symm)⟩
  · rintro ⟨hmask, rfl⟩
    have field {i k : Nat} (hone : (0xFCFF#16).extractLsb' i k = BitVec.allOnes k) :
        w.extractLsb' i k = (0x2000#16).extractLsb' i k := by
      rw [← hmask, BitVec.extractLsb'_and, hone, BitVec.and_allOnes]
    have hop : wordOp w = 2#4 := field (by decide)
    have hzero : w.extractLsb' 10 2 = 0#2 := field (by decide)
    have hdata : wordData w = 0#8 := field (by decide)
    simp [decode, hop, hzero, hdata, lineNumber, wordL]

/-! ### The reserved words (30_encoding.md R75) -/

theorem exists_reserved_ite {P : Prop} [Decidable P] (a b : Decoded) :
    (∃ why, (if P then a else b) = .reserved why)
      ↔ if P then ∃ why, a = .reserved why else ∃ why, b = .reserved why := by
  split <;> rfl

theorem opcode_cases (op : BitVec 4) : op = 0#4 ∨ op = 1#4 ∨ op = 2#4 ∨ op = 3#4 ∨ op = 4#4
    ∨ (5 ≤ op.toNat ∧ op ≠ 0#4 ∧ op ≠ 1#4 ∧ op ≠ 2#4 ∧ op ≠ 3#4 ∧ op ≠ 4#4) := by
  revert op
  decide

/-- Opcode by opcode: the words of R75's five groups are reserved, and no others. -/
theorem decode_reserved_iff (w : Word) : (∃ why, decode w = .reserved why) ↔
    5 ≤ (wordOp w).toNat
      ∨ (wordOp w = 0x0#4 ∧ w ≠ 0x0000#16)
      ∨ (wordOp w = 0x1#4 ∧ w.extractLsb' 9 3 ≠ 0)
      ∨ (wordOp w = 0x2#4 ∧ (w.extractLsb' 10 2 ≠ 0 ∨ wordData w ≠ 0))
      ∨ (wordOp w = 0x3#4 ∧ w ≠ 0x3000#16) := by
  rcases opcode_cases (wordOp w) with h | h | h | h | h | ⟨hge, h0, h1, h2, h3, h4⟩
  · simp [decode, exists_reserved_ite, h]
  · simp [decode, exists_reserved_ite, h]
  · simp [decode, exists_reserved_ite, h, imp_iff_not_or]
  · simp [decode, exists_reserved_ite, h]
  · simp [decode, h]
  · simp [decode, hge, h0, h1, h2, h3, h4]

end Sys2Proof

/-! PROOFS. The accepting edge, and the phases on the lines (30_encoding.md R77, R78; 45_control.md R204). -/

namespace Sys2Proof.Machine

open Safety

/-! ### The accepting edge -/

theorem edge_of_legal {p : Ports} {s : State} {i : Instr} (hr : p.rst = false) (hv : p.cmdValid = true)
    (hs : s.st = .idle) (hd : decode p.cmdWord = .legal i) : edge p s = exec i s := by
  simp [edge, hr, hv, hs, hd]

theorem edge_of_reserved {p : Ports} {s : State} {why : ReservedWord} (hr : p.rst = false) (hv : p.cmdValid = true)
    (hs : s.st = .idle) (hd : decode p.cmdWord = .reserved why) : edge p s = .next (setErr s) := by
  simp [edge, hr, hv, hs, hd, reservedWord]

theorem exec_eq_enterFrom {i : Instr} (h : i.wf = true) (s : State) :
    exec i s = enterFrom (microProg (startOf i s)) (startOf i s) := exec_eq_start h s

/-! ### The phases of an event list -/

/-- RS and the data lines do not move within an Enable pulse, so both its edges show one phase. -/
@[simp] theorem phasesAt_nibble (v : Bool) (c : Config) (l : Lines) (n : Nibble) :
    phasesAt v l (nibble c n) = [BitVec.ofBool l.rs ++ n] := by
  cases v <;> simp [nibble, phasesAt_append, phasesAt, Lines.apply]

@[simp] theorem phasesAt_xfer (v : Bool) (c : Config) (l : Lines) (b : Byte) (m : Bool) :
    phasesAt v l (xfer c b m) = [BitVec.ofBool m ++ hiNibble b, BitVec.ofBool m ++ loNibble b] := by
  simp [xfer, phasesAt_append, phasesAt, Lines.apply]

@[simp] theorem phasesAt_sleepIf (v : Bool) (l : Lines) (n : Nat) (t : Ratio) : phasesAt v l (sleepIf n t) = [] := by
  unfold sleepIf
  split <;> simp [phasesAt]

@[simp] theorem phasesAt_cfgEvents (v : Bool) (l : Lines) : phasesAt v l cfgEvents = [] := by
  simp [cfgEvents, phasesAt]

/-- Every command is made of whole transfers and waits, and so shows the same phases at either edge. -/
theorem phasesAt_instrEvents (c : Config) (l : Lines) (i : Instr) :
    phasesAt true l (instrEvents c i) = phasesAt false l (instrEvents c i) := by
  cases i <;> simp [instrEvents, phasesAt_append, phasesAt]

theorem phasesAt_initEvents (c : Config) (l : Lines) :
    phasesAt true l (initEvents c) = phasesAt false l (initEvents c) := by
  simp [initEvents, phasesAt_append]

end Sys2Proof.Machine

/-! PROOFS. The statements of 30_encoding.md. -/

namespace Sys2Proof.Proofs

open Sys2Proof.Machine Sys2Proof.Machine.Safety

/-- Settles O1: the fields of an encoded command lead the decoder to the command's own arm. -/
theorem decodeEncodeAgree : Obligations.DecodeEncodeAgree := fun _ => decode_encode

/-- Settles O2: the fields the decoder tests and reads make up the whole word. -/
theorem encodeDecodeAgree : Obligations.EncodeDecodeAgree := fun _ _ => decode_eq_legal_iff.1

/-- Settles O3 row by row; a word that is not reserved decodes to a command, so it matches that command's row. -/
theorem decodeFollowsOpcodeTable : Obligations.DecodeFollowsOpcodeTable := by
  intro w
  refine ⟨decode_nop_iff w, decode_xferC_iff w, decode_xferD_iff w, decode_line_iff w, decode_clear_iff w,
    decode_delay_iff w, fun hnop hxferC hxferD hline hclear hdelay => ?_⟩
  cases hd : decode w with
  | reserved why => exact ⟨why, rfl⟩
  | legal i =>
    cases i with
    | nop => exact absurd ((decode_nop_iff w).1 hd) hnop
    | xferC b => exact absurd ((decode_xferC_iff w b).1 hd).1 hxferC
    | xferD b => exact absurd ((decode_xferD_iff w b).1 hd).1 hxferD
    | line n => exact absurd ((decode_line_iff w n).1 hd).1 hline
    | clear => exact absurd ((decode_clear_iff w).1 hd) hclear
    | delay c => exact absurd ((decode_delay_iff w c).1 hd).1 hdelay

/-- Settles O4: the five groups are read off the decoder, and the accepting edge is `setErr`. -/
theorem reservedWordsAreThese : Obligations.ReservedWordsAreThese :=
  fun w => ⟨decode_reserved_iff w, fun _ hs ⟨_, hd⟩ => edge_of_reserved rfl rfl hs hd⟩

/-- Settles O9: a legal word is the encoding of its command, so its latches are those of the command's start. -/
theorem acceptanceLatchesOperands : Obligations.AcceptanceLatchesOperands := by
  intro p s i hr hv hs hd q
  obtain ⟨hwf, hword⟩ := decode_eq_legal_iff.1 hd
  have hstart : startOf i s = q := by
    rw [startOf, hword]
    cases i <;> rfl
  rw [edge_of_legal hr hv hs hd, exec_eq_enterFrom hwf, hstart]

/-- Settles O31, for a transfer, for every command and for bring-up. -/
theorem transferPhases : Obligations.TransferPhases :=
  fun c l => ⟨fun v b m => phasesAt_xfer v c l b m, phasesAt_instrEvents c l, phasesAt_initEvents c l⟩

/-- Settles O5: the decoder run on each word. -/
theorem sampleWordsDecode : Obligations.SampleWordsDecode := by
  unfold Obligations.SampleWordsDecode
  decide

/-- Settles O14: the range is the guard of `execLine`. -/
theorem lineOutsideRangeRefused : Obligations.LineOutsideRangeRefused := fun _ _ h => if_neg h

/-- Settles O59: the assembler run on each line. -/
theorem assemblerTable : Obligations.AssemblerTable := by
  unfold Obligations.AssemblerTable
  decide

end Sys2Proof.Proofs

/-! PROOFS. The micro-operations of a program one after another: the entry of each at its edge, and a busy engine until
`END` (41_byte_transfer.md R131, R138). -/

namespace Sys2Proof.Machine

open Safety

/-- The state in which the `next()` after a micro-operation entered in `s` is called (41_byte_transfer.md R131);
`END` is the last and has none after it. -/
def opEnd (s : State) : MicroOp → State
  | .cfg => enterCfg s
  | .x b m => transferEnd b m s
  | .w n t => if n = 0 then s else lastCycle (enterW n t s)
  | .fin => enterEnd s

/-- The state in which the micro-operation after `us` is entered, when the first of `us` is entered in `s`. -/
def afterOps (us : List MicroOp) (s : State) : State := us.foldl (fun q u => nextIdx (opEnd q u)) s

theorem opEnd_cfg (s : State) (u : MicroOp) : (opEnd s u).cfg = s.cfg := by
  cases u with
  | cfg => rfl
  | x b m => rfl
  | w n t => by_cases hn : n = 0 <;> simp [opEnd, hn]
  | fin => rfl

theorem afterOps_cfg (us : List MicroOp) (s : State) : (afterOps us s).cfg = s.cfg := by
  induction us generalizing s with
  | nil => rfl
  | cons u us ih => exact (ih (nextIdx (opEnd s u))).trans (opEnd_cfg s u)

/-- Before `END` the program and its index stand, `init_done` is not written, and driven lines stay driven
(40_init_sequencer.md R101, R104). -/
theorem opEnd_keeps (s : State) {u : MicroOp} (hu : u ≠ .fin) :
    microProg (opEnd s u) = microProg s ∧ (opEnd s u).pidx = s.pidx
    ∧ (opEnd s u).initDone = s.initDone ∧ (s.oe = true → (opEnd s u).oe = true) := by
  cases u with
  | cfg => exact ⟨microProg_enterCfg s, rfl, rfl, fun _ => rfl⟩
  | x b m => exact ⟨microProg_congr rfl rfl rfl rfl rfl rfl, rfl, rfl, id⟩
  | w n t => by_cases hn : n = 0 <;> simp [opEnd, hn]
  | fin => exact absurd rfl hu

/-- A wait of no cycles is passed over (41_byte_transfer.md R131). -/
theorem enterFrom_skip {n : Nat} (us : List MicroOp) (t : Ratio) (s : State) (hn : n = 0) :
    enterFrom (.w n t :: us) s = enterFrom us (nextIdx s) := if_pos hn

theorem enterFrom_wait {n : Nat} (us : List MicroOp) (t : Ratio) (s : State) (hn : n ≠ 0) :
    enterFrom (.w n t :: us) s = .next (enterW n t s) := if_neg hn

theorem andThen_runEdges_append (o : Out) (ps qs : List Ports) :
    andThen (andThen o (runEdges ps)) (runEdges qs) = andThen o (runEdges (ps ++ qs)) := by
  cases o with
  | next s => exact (runEdges_append ps qs s).symm
  | fault r => rfl
  | refused r => rfl

/-- Entering a micro-operation and running its cycles without reset enters the next one (41_byte_transfer.md R131). -/
theorem run_op {u : MicroOp} {us : List MicroOp} {s : State} {ps : List Ports} (hv : s.cfg.valid = true)
    (hat : StandsAt (u :: us) s) (hu : u ≠ .fin) (hr : NoReset ps) (hl : ps.length = opCycles s.cfg u) :
    andThen (enterFrom (u :: us) s) (runEdges ps) = enterFrom us (nextIdx (opEnd s u)) := by
  obtain ⟨hprog, hidx, -⟩ := opEnd_keeps s hu
  have hnext : nextOp (opEnd s u) = enterFrom us (nextIdx (opEnd s u)) := hat.nextOp_eq hprog hidx
  cases u with
  | cfg =>
    obtain rfl : ps = [] := List.length_eq_zero_iff.mp hl
    exact andThen_next_right _
  | x b m => exact (run_transfer hv hr hl).trans hnext
  | w n t =>
    by_cases hn : n = 0
    · obtain rfl : ps = [] := List.length_eq_zero_iff.mp (hl.trans hn)
      rw [enterFrom_skip us t s hn, opEnd, if_pos hn]
      exact andThen_next_right _
    · have hwait := run_wait (s := enterW n t s) hr rfl hl (Nat.pos_of_ne_zero hn)
      rw [← hnext, opEnd, if_neg hn, ← hwait, enterFrom_wait us t s hn, andThen_next]
  | fin => exact absurd rfl hu

/-- Entering a micro-program and running the cycles of its first micro-operations enters the one after them. -/
theorem run_first_ops {us vs : List MicroOp} {s : State} {ps : List Ports} (hv : s.cfg.valid = true)
    (hat : StandsAt (us ++ vs) s) (hfin : MicroOp.fin ∉ us) (hr : NoReset ps)
    (hl : ps.length = opsCycles s.cfg us) :
    andThen (enterFrom (us ++ vs) s) (runEdges ps) = enterFrom vs (afterOps us s) := by
  induction us generalizing s ps with
  | nil =>
    obtain rfl : ps = [] := List.length_eq_zero_iff.mp hl
    exact andThen_next_right _
  | cons u us ih =>
    have hu : u ≠ .fin := fun h => hfin (h ▸ List.mem_cons_self)
    obtain ⟨hprog, hidx, -⟩ := opEnd_keeps s hu
    have hcfg : (nextIdx (opEnd s u)).cfg = s.cfg := opEnd_cfg s u
    obtain ⟨qs, rs, rfl, hq, hrs, hnq, hnr⟩ := split_edges hl hr
    have hlater : MicroOp.fin ∉ us := fun h => hfin (List.mem_cons_of_mem _ h)
    have hrest := ih (hcfg ▸ hv) (hat.next hu hprog hidx) hlater hnr (hcfg ▸ hrs)
    have hfirst : andThen (enterFrom (u :: us ++ vs) s) (runEdges qs) = enterFrom (us ++ vs) (nextIdx (opEnd s u)) :=
      run_op hv hat hu hnq hq
    rw [← andThen_runEdges_append, hfirst, hrest]
    rfl

/-- Before its last cycle has passed, a micro-operation that takes time keeps the engine busy and writes neither
`init_done` nor `oe` (40_init_sequencer.md R101, R104). -/
theorem run_within_op {u : MicroOp} (us : List MicroOp) {s : State} {ps : List Ports} (hv : s.cfg.valid = true)
    (hr : NoReset ps) (hl : ps.length < opCycles s.cfg u) :
    ∃ t, andThen (enterFrom (u :: us) s) (runEdges ps) = .next t ∧ t.st ≠ .idle ∧ t.initDone = s.initDone
      ∧ t.oe = s.oe := by
  cases u with
  | cfg => exact absurd hl (Nat.not_lt_zero _)
  | x b m =>
    obtain ⟨j, r, -, -, -, hrun⟩ := in_transfer b m hv hr hl
    obtain ⟨-, hoe, -, -, hinit⟩ := afterPhase_keeps b m s j
    exact ⟨_, hrun, by simp [afterPhase_st], hinit, hoe⟩
  | w n t =>
    have hn : n ≠ 0 := Nat.ne_zero_of_lt hl
    have hrun := run_count (s := enterW n t s) hr (.inr rfl) hl
    rw [enterFrom_wait us t s hn]
    exact ⟨_, hrun, by simp, rfl, rfl⟩
  | fin => exact absurd hl (Nat.not_lt_zero _)

/-- Before its last cycle has passed, a micro-program keeps the engine busy, does not write `init_done` and keeps the
lines driven (40_init_sequencer.md R101, R104). -/
theorem run_before_end {us : List MicroOp} {s : State} {ps : List Ports} (hv : s.cfg.valid = true)
    (hat : StandsAt us s) (hr : NoReset ps) (hl : ps.length < opsCycles s.cfg us) :
    ∃ t, andThen (enterFrom us s) (runEdges ps) = .next t ∧ t.st ≠ .idle ∧ t.initDone = s.initDone
      ∧ (s.oe = true → t.oe = true) := by
  induction us generalizing s ps with
  | nil => exact absurd hl (Nat.not_lt_zero _)
  | cons u us ih =>
    by_cases hin : ps.length < opCycles s.cfg u
    · obtain ⟨t, hrun, hst, hinit, hoe⟩ := run_within_op us hv hr hin
      exact ⟨t, hrun, hst, hinit, hoe.trans⟩
    · have hu : u ≠ .fin := by
        rintro rfl
        obtain rfl : us = [] := hat.ends
        exact hin hl
      obtain ⟨hprog, hidx, hinit, hoe⟩ := opEnd_keeps s hu
      have hcfg : (nextIdx (opEnd s u)).cfg = s.cfg := opEnd_cfg s u
      obtain ⟨qs, rs, rfl, hq, hrs, hnq, hnr⟩ :=
        split_edges (n := opCycles s.cfg u) (k := ps.length - opCycles s.cfg u) (by omega) hr
      have hshort : rs.length < opsCycles s.cfg us := by
        simp only [opsCycles] at hl
        omega
      obtain ⟨t, hrun, hst, htinit, htoe⟩ :=
        ih (hcfg ▸ hv) (hat.next hu hprog hidx) hnr (hcfg ▸ hshort)
      refine ⟨t, ?_, hst, htinit.trans hinit, fun h => htoe (hoe h)⟩
      rw [← andThen_runEdges_append, run_op hv hat hu hnq hq, hrun]

theorem opsCycles_append (c : Config) (us vs : List MicroOp) :
    opsCycles c (us ++ vs) = opsCycles c us + opsCycles c vs := by
  induction us with
  | nil => simp [opsCycles]
  | cons u us ih => simp only [List.cons_append, opsCycles, ih, Nat.add_assoc]

/-- Transfers in a row take `T_X` cycles each (41_byte_transfer.md R138). -/
theorem opsCycles_transfers (c : Config) (bs : List Byte) (m : Bool) :
    opsCycles c (bs.map (.x · m)) = bs.length * c.transferCycles := by
  induction bs with
  | nil => simp [opsCycles]
  | cons b bs ih => rw [List.map_cons, opsCycles, ih, List.length_cons, Nat.succ_mul, Nat.add_comm]; rfl

end Sys2Proof.Machine

/-! PROOFS. The bring-up program from `BOOT`: its edges, and its end (40_init_sequencer.md R100 to R106). -/

namespace Sys2Proof.Machine

open Safety

/-- The bytes of the bring-up program, all sent in Command mode (40_init_sequencer.md R100). -/
def bringUpBytes : List Byte := [0x33, 0x32, 0x28, 0x0C, 0x06, 0x01]

/-- The power-up wait and the first `j` transfers of the bring-up program. -/
def bringUpUntil (j : Nat) (c : Config) : List MicroOp :=
  .w c.nPowerup c.tPowerup :: (bringUpBytes.take j).map (.x · false)

/-- The bring-up program from transfer `j` on. -/
def bringUpFrom (j : Nat) : List MicroOp := (bringUpBytes.drop j).map (.x · false) ++ [.fin]

/-- The state in which the power-up wait is entered, at edge 1 (40_init_sequencer.md R101). -/
def bringUpStart (s : State) : State := nextIdx (enterCfg { s with prog := .init, pidx := 0#4 })

theorem bringUp_split (j : Nat) (c : Config) :
    bringUpUntil j c ++ bringUpFrom j = .w c.nPowerup c.tPowerup :: bringUpFrom 0 := by
  simp [bringUpUntil, bringUpFrom, ← List.append_assoc]

/-- After `CFG` the rest of the bring-up program stands to be run, wherever it is split. -/
theorem bringUpStart_standsAt (s : State) (j : Nat) :
    StandsAt (bringUpUntil j s.cfg ++ bringUpFrom j) (bringUpStart s) := by
  rw [bringUp_split]
  exact ⟨rfl, rfl⟩

/-- Edge 1 configures the lines and goes on to the power-up wait (40_init_sequencer.md R101). -/
theorem run_from_boot {p : Ports} {s : State} (ps : List Ports) (j : Nat) (hs : s.st = .boot) (hp : p.rst = false) :
    runEdges (p :: ps) s
      = andThen (enterFrom (bringUpUntil j s.cfg ++ bringUpFrom j) (bringUpStart s)) (runEdges ps) := by
  have hedge : edge p s = bootArm s := by simp [edge, hp, hs]
  rw [runEdges_cons, hedge, bringUp_split]
  rfl

theorem opsCycles_bringUpUntil {j : Nat} (hj : j ≤ 6) (c : Config) :
    opsCycles c (bringUpUntil j c) = c.nPowerup + j * c.transferCycles := by
  have hlen : (bringUpBytes.take j).length = j := List.length_take_of_le hj
  rw [bringUpUntil, opsCycles, opsCycles_transfers, hlen]
  rfl

theorem fin_notMem_bringUpUntil (j : Nat) (c : Config) : MicroOp.fin ∉ bringUpUntil j c := by
  simp [bringUpUntil, -List.map_take]

/-- Edge `1 + N_POWERUP + j * T_X` enters what follows the first `j` transfers (40_init_sequencer.md R106). -/
theorem run_bringUp {s : State} {p : Ports} {ps : List Ports} {j : Nat} (hv : s.cfg.valid = true) (hs : s.st = .boot)
    (hr : NoReset (p :: ps)) (hj : j ≤ 6) (hl : ps.length = s.cfg.nPowerup + j * s.cfg.transferCycles) :
    runEdges (p :: ps) s = enterFrom (bringUpFrom j) (afterOps (bringUpUntil j s.cfg) (bringUpStart s)) := by
  obtain ⟨hp, hps⟩ := noReset_cons.mp hr
  rw [run_from_boot ps j hs hp]
  exact run_first_ops (s := bringUpStart s) hv (bringUpStart_standsAt s j) (fin_notMem_bringUpUntil j s.cfg) hps
    (hl.trans (opsCycles_bringUpUntil hj s.cfg).symm)

/-- From edge 1 to the first transfer only the timer moves (40_init_sequencer.md R103). -/
theorem run_powerup {s : State} {p : Ports} {ps : List Ports} (hs : s.st = .boot) (hr : NoReset (p :: ps))
    (hl : ps.length < s.cfg.nPowerup) :
    runEdges (p :: ps) s = .next
      { enterW s.cfg.nPowerup s.cfg.tPowerup (bringUpStart s) with cnt := s.cfg.nPowerup - ps.length } := by
  obtain ⟨hp, hps⟩ := noReset_cons.mp hr
  rw [run_from_boot ps 0 hs hp, bringUp_split, enterFrom_wait _ _ _ (Nat.ne_zero_of_lt hl), andThen_next]
  exact run_count hps (.inr rfl) hl

/-- From edge 1 to its last edge the bring-up program is busy, drives the lines and leaves `init_done` alone
(40_init_sequencer.md R106). -/
theorem run_bringUp_busy {s : State} {p : Ports} {ps : List Ports} (hv : s.cfg.valid = true) (hs : s.st = .boot)
    (hr : NoReset (p :: ps)) (hl : ps.length < s.cfg.nPowerup + 6 * s.cfg.transferCycles) :
    ∃ t, runEdges (p :: ps) s = .next t ∧ t.oe = true ∧ t.st ≠ .idle ∧ t.initDone = s.initDone := by
  obtain ⟨hp, hps⟩ := noReset_cons.mp hr
  have hcycles : opsCycles s.cfg (bringUpUntil 6 s.cfg ++ bringUpFrom 6)
      = s.cfg.nPowerup + 6 * s.cfg.transferCycles := by
    rw [opsCycles_append, opsCycles_bringUpUntil (Nat.le_refl 6)]
    rfl
  obtain ⟨t, hrun, hst, hinit, hoe⟩ :=
    run_before_end (s := bringUpStart s) hv (bringUpStart_standsAt s 6) hps (hl.trans_eq hcycles.symm)
  exact ⟨t, by rw [run_from_boot ps 6 hs hp, hrun], hoe rfl, hst, hinit⟩

/-- Transfer `j` of the six starts at edge `1 + N_POWERUP + j * T_X` (40_init_sequencer.md R106). -/
theorem run_bringUp_transfer {s : State} {p : Ports} {ps : List Ports} {j : Nat} (hv : s.cfg.valid = true)
    (hs : s.st = .boot) (hr : NoReset (p :: ps)) (hj : j < bringUpBytes.length)
    (hl : ps.length = s.cfg.nPowerup + j * s.cfg.transferCycles) :
    runEdges (p :: ps) s
      = .next (enterX bringUpBytes[j] false (afterOps (bringUpUntil j s.cfg) (bringUpStart s))) := by
  rw [run_bringUp hv hs hr (Nat.le_of_lt hj) hl, bringUpFrom, List.drop_eq_getElem_cons hj]
  rfl

/-- After its six transfers the bring-up program ends as `afterBringUp` has it (40_init_sequencer.md R104, R106). -/
theorem enterEnd_bringUp {s : State} (hv : s.cfg.valid = true) :
    enterEnd (afterOps (bringUpUntil 6 s.cfg) (bringUpStart s)) = afterBringUp s := by
  by_cases hn : s.cfg.nPowerup = 0 <;>
    simp [afterOps, bringUpUntil, bringUpBytes, bringUpStart, opEnd, hn, enterCfg, emit, nextIdx, enterW, lastCycle,
      transferEnd, enterEnd, endFlags, afterBringUp, initEvents, sleepIf, ← valid_powerup hv, loNibble]

/-- Edge `1 + N_POWERUP + 6 * T_X` ends the bring-up program (40_init_sequencer.md R106). -/
theorem run_bringUp_end {s : State} {p : Ports} {ps : List Ports} (hv : s.cfg.valid = true) (hs : s.st = .boot)
    (hr : NoReset (p :: ps)) (hl : ps.length = s.cfg.nPowerup + 6 * s.cfg.transferCycles) :
    runEdges (p :: ps) s = .next (afterBringUp s) := by
  rw [run_bringUp hv hs hr (Nat.le_refl 6) hl, ← enterEnd_bringUp hv]
  rfl

/-- What bring-up leaves is the first transaction-level step (10_state.md R40). -/
theorem afterBringUp_tl (s : State) : (afterBringUp s).tl = tlInit s.cfg s.tl := by
  by_cases hn : s.cfg.tPowerup.num = 0 <;>
    simp [afterBringUp, State.tl, tlInit, TLState.emit, TLState.lines, initEvents, sleepIf, hn, Lines.apply, loNibble]

end Sys2Proof.Machine

/-! PROOFS. The statements of 40_init_sequencer.md. -/

namespace Sys2Proof.Proofs

open Sys2Proof.Machine Sys2Proof.Machine.Safety

/-- Settles O23: the bring-up program as the wait and the six transfers it is made of, each at its edge. -/
theorem bringUpCompletes : Obligations.BringUpCompletes := by
  intro s ps hv hs hr
  cases ps with
  | nil =>
    rw [List.length_nil]
    exact ⟨fun h => by omega, fun j _ h => by omega, fun h => by omega⟩
  | cons p ps =>
    rw [List.length_cons]
    refine ⟨fun _ hl => ?_, fun j hj hl => ?_, fun hl => run_bringUp_end hv hs hr (by omega)⟩
    · obtain ⟨t, hrun, hoe, hst, hinit⟩ := run_bringUp_busy hv hs hr (by omega)
      refine ⟨t, hrun, hoe, hst, hinit, fun hwait => ?_⟩
      rw [run_powerup hs hr (by omega), Host.Outcome.next.injEq] at hrun
      subst hrun
      rfl
    · have hrun := run_bringUp_transfer hv hs hr (j := j) hj (by omega)
      exact ⟨_, hrun, rfl, rfl, rfl, congrArg Config.nSettle (afterOps_cfg _ _), rfl,
        List.getElem?_eq_getElem hj, rfl⟩

/-- Settles O29: `BOOT` is the reset state, and what bring-up leaves is the first transaction-level step on it. -/
theorem bringUpRefinesTransaction : Obligations.BringUpRefinesTransaction := by
  intro s ps hi hs hr hl
  cases ps with
  | nil =>
    rw [List.length_nil] at hl
    omega
  | cons p ps =>
    rw [List.length_cons, initCycles] at hl
    have hreset : s.tl = TLState.reset := by rw [hi.boot hs]; rfl
    exact ⟨afterBringUp s, run_bringUp_end hi.valid hs hr (by omega), rfl, hreset ▸ afterBringUp_tl s⟩

end Sys2Proof.Proofs

/-! PROOFS. The step as one edge, and the port of a run that is over (41_byte_transfer.md R137; 60_exceptions.md R240,
R241). -/

namespace Sys2Proof.Machine

open Safety

/-! ### The step around the edge -/

/-- In a valid configuration with no foreign driver a step is the edge, with what is added around it
(41_byte_transfer.md R137). -/
theorem step_eq_edge {s : State} (hv : s.cfg.valid = true) (hd : drivesLine s = false) :
    step s = andThen (edge (hostPorts s) s) fun t => .next (afterEdge (accepts (hostPorts s) s) t) := by
  rw [step, if_pos hv, if_neg (by simp [hd])]
  rfl

/-- A foreign driver leaves the port quiet, so a move that sets `cmd_valid` drives no line (60_exceptions.md R240). -/
theorem drivesLine_of_cmdValid {s : State} (h : (hostPorts s).cmdValid = true) : drivesLine s = false := by
  unfold drivesLine
  split
  case h_1 hh => simp [hostPorts, hh, Ports.quiet] at h
  all_goals rfl

/-- Every state that meets the invariant has a next state at every edge, reset or not (41_byte_transfer.md R137). -/
theorem edge_total {s : State} (p : Ports) (hi : EngineInv s) : ∃ t, edge p s = .next t := by
  cases hp : p.rst with
  | true => exact ⟨resetEdge s, edge_of_rst hp s⟩
  | false =>
    obtain ⟨t, h, -⟩ := edge_inv p hi hp
    exact ⟨t, h⟩

/-! ### A run that is over -/

theorem edge_of_quiet {p : Ports} {s : State} (hr : p.rst = false) (hv : p.cmdValid = false) (hs : s.st = .idle) :
    edge p s = .next s := by
  simp [edge, hr, hv, hs]

theorem runOver_iff (s : State) :
    runOver s = true ↔ s.st = .idle ∧ s.initDone = true ∧ ∀ mv ∈ s.host, mv.presents = false := by
  simp [runOver, and_assoc]

/-- No move presents a command: the script holds no word to hold on the port, and each of its levels leaves `cmd_valid`
at 0 (60_exceptions.md R241). -/
theorem presents_none_iff (ms : List HostMove) :
    (∀ mv ∈ ms, mv.presents = false) ↔
      (∀ w, .present w ∉ ms) ∧ ∀ p, .levels p ∈ ms → p.cmdValid = false := by
  constructor
  · intro h
    exact ⟨fun w hm => by simpa [HostMove.presents] using h _ hm, fun p hm => h _ hm⟩
  · rintro ⟨hword, hlevels⟩ mv hm
    cases mv with
    | present w => exact absurd hm (hword w)
    | levels p => exact hlevels p hm
    | foreignDrive l v => rfl

/-- A host with nothing to present leaves `cmd_valid` at 0. -/
theorem cmdValid_of_presents_none {s : State} (h : ∀ mv ∈ s.host, mv.presents = false) :
    (hostPorts s).cmdValid = false := by
  unfold hostPorts
  split
  case h_1 => rfl
  case h_2 w _ hh => simpa [HostMove.presents] using h (.present w) (by simp [hh])
  case h_3 p _ hh => exact h (.levels p) (by simp [hh])
  case h_4 => rfl

end Sys2Proof.Machine

/-! PROOFS. A byte transfer edge by edge: its event list, its phases, and a command of one transfer (41_byte_transfer.md
R121 to R138). -/

namespace Sys2Proof.Machine

open Safety

/-! ### The end of a phase -/

/-- The last edge of a phase of a nibble ends it (41_byte_transfer.md R132, R133). -/
theorem edge_of_phase_end {p : Ports} {s : State} (hp : p.rst = false) (hs : s.st = .nib) (hc : s.cnt ≤ 1) :
    edge p s = phaseEnd s := by
  simp [edge, hp, hs, nibArm, hc]

theorem phaseEnd_pre {s : State} (hp : s.ph = .pre) : phaseEnd s = .next (raiseEnable s) := by
  simp [phaseEnd, hp]

theorem phaseEnd_pulse {s : State} (hp : s.ph = .pulse) : phaseEnd s = .next (lowerEnable s) := by
  simp [phaseEnd, hp]

theorem phaseEnd_post_hi {s : State} (hp : s.ph = .post) (hh : s.half = .hi) :
    phaseEnd s = .next (lowNibble s) := by
  simp [phaseEnd, hp, hh]

theorem phaseEnd_post_lo {s : State} (hp : s.ph = .post) (hh : s.half = .lo) : phaseEnd s = nextOp s := by
  simp [phaseEnd, hp, hh]

/-! ### The event list of a transfer -/

/-- Four lines are set low, and one more event sets each line of a 1 bit high (41_byte_transfer.md R122). -/
theorem dataEvents_length (n : Nibble) :
    (dataEvents n).length = 4 + ((List.range 4).filter (fun i => n.getLsbD i)).length := by
  have hrange : List.range 4 = [0, 1, 2, 3] := rfl
  simp only [dataEvents, hrange, List.filter_cons]
  split_ifs <;> rfl

/-- The 1 bits of a byte are those of its two nibbles. -/
theorem popcount_nibbles (b : Byte) :
    ((List.range 8).filter (fun i => b.getLsbD i)).length
      = ((List.range 4).filter (fun i => (hiNibble b).getLsbD i)).length
        + ((List.range 4).filter (fun i => (loNibble b).getLsbD i)).length := by
  have hrange : List.range 8 = List.range 4 ++ (List.range 4).map (4 + ·) := rfl
  have hlow : ∀ i ∈ List.range 4, b.getLsbD i = (loNibble b).getLsbD i := by
    simp +contextual [loNibble]
  have hhigh : ∀ i ∈ List.range 4, b.getLsbD (4 + i) = (hiNibble b).getLsbD i := by
    simp +contextual [hiNibble]
  rw [hrange, List.filter_append, List.length_append, List.filter_map, List.length_map, Nat.add_comm,
    List.filter_congr hlow, ← List.filter_congr hhigh]
  rfl

theorem nibble_length (c : Config) (n : Nibble) :
    (nibble c n).length = 9 + ((List.range 4).filter (fun i => n.getLsbD i)).length := by
  simp only [nibble, List.length_append, dataEvents_length, List.length_cons, List.length_nil]
  omega

theorem xfer_length (c : Config) (b : Byte) (m : Bool) :
    (xfer c b m).length = 19 + ((List.range 8).filter (fun i => b.getLsbD i)).length := by
  simp only [xfer, List.length_append, nibble_length, popcount_nibbles, List.length_cons, List.length_nil]
  omega

/-! ### The six phases -/

/-- The half and the phase in each of the six phases (41_byte_transfer.md R130). -/
theorem afterPhase_half_ph (b : Byte) (m : Bool) (s : State) {j : Nat} (hj : j ≤ 5) :
    (afterPhase b m s j).half = (if j < 3 then .hi else .lo)
    ∧ (afterPhase b m s j).ph = (if j < 1 then .pre else if j < 2 then .pulse else if j < 3 then .post
        else if j < 4 then .pre else if j < 5 then .pulse else .post) := by
  interval_cases j <;> simp [afterPhase, endOfPhase]

/-- Enable is high in the pulse phases of a transfer entered with Enable low, and in no other (41_byte_transfer.md R130,
R136). -/
theorem afterPhase_enable (b : Byte) (m : Bool) {s : State} {j : Nat} (hj : j ≤ 5) (he : s.e = false) :
    (afterPhase b m s j).e = decide (j = 1 ∨ j = 4) := by
  rw [(afterPhase_lines b m s hj).2]
  by_cases h0 : j = 0 <;> simp [h0, he]

theorem phaseStart_succ (c : Config) {j : Nat} (hj : j ≤ 4) :
    phaseStart c (j + 1) = phaseStart c j + if j = 1 ∨ j = 4 then c.nPulse else c.nSettle := by
  interval_cases j <;> simp [phaseStart] <;> omega

theorem phaseStart_mono (c : Config) : Monotone (phaseStart c) := by
  refine monotone_nat_of_le_succ fun j => ?_
  by_cases hj : j ≤ 4
  · rw [phaseStart_succ c hj]
    exact Nat.le_add_right _ _
  · obtain ⟨d, rfl⟩ := Nat.exists_eq_add_of_le' (Nat.lt_of_not_le hj)
    exact Nat.le_refl _

/-- An edge within phase `j` comes before the start of the later phases and of no other. -/
theorem lt_phaseStart_iff {c : Config} {j r k i : Nat} (hr : r < if j = 1 ∨ j = 4 then c.nPulse else c.nSettle)
    (hk : k = phaseStart c j + r) (hi : i ≤ 5) : k < phaseStart c i ↔ j < i := by
  constructor
  · intro h
    by_contra hle
    have := phaseStart_mono c (Nat.le_of_not_lt hle)
    omega
  · intro h
    calc k < phaseStart c (j + 1) := by rw [hk, phaseStart_succ c (by omega)]; exact Nat.add_lt_add_left hr _
      _ ≤ phaseStart c i := phaseStart_mono c h

/-! ### A command of one transfer -/

/-- A word whose number is a base plus an operand is their sum as words: nothing wraps. -/
theorem word_eq_add {n : Nat} {w base : Word} {x : BitVec n} (h : w.toNat = base.toNat + x.toNat) :
    w = base + x.zeroExtend 16 := by
  have hsum : base.toNat + x.toNat < 2 ^ 16 := h ▸ w.isLt
  have hx : x.toNat < 2 ^ 16 := by omega
  apply BitVec.eq_of_toNat_eq
  rw [BitVec.toNat_add, BitVec.toNat_setWidth, Nat.mod_eq_of_lt hx, Nat.mod_eq_of_lt hsum, h]

/-- The `END` of a command's program sets no flag (40_init_sequencer.md R104). -/
theorem enterEnd_of_command {s : State} (h : s.prog ≠ .init) : enterEnd s = { s with st := .idle } := by
  simp [enterEnd, endFlags, h]

/-- The accepting edge of a command whose program is one transfer (30_encoding.md R80). -/
theorem exec_one_transfer {i : Instr} {s : State} {b : Byte} {m : Bool} (hw : i.wf = true)
    (hm : microProg (startOf i s) = [.x b m, .fin]) : exec i s = .next (enterX b m (startOf i s)) := by
  rw [exec_eq_enterFrom hw, hm]
  rfl

/-- A command whose program is one transfer is IDLE after `T_X` edges (41_byte_transfer.md R131, R138). -/
theorem run_one_transfer {i : Instr} {s : State} {b : Byte} {m : Bool} {ps : List Ports} (hv : s.cfg.valid = true)
    (hw : i.wf = true) (hm : microProg (startOf i s) = [.x b m, .fin]) (hr : NoReset ps)
    (hl : ps.length = s.cfg.transferCycles) :
    andThen (exec i s) (runEdges ps) = .next { startOf i s with
      pidx := 1#4, curByte := b, rs := m, e := false, d := loNibble b, half := .lo, ph := .post, cnt := 1,
      st := .idle, trace := s.trace ++ xfer s.cfg b m } := by
  have hat : StandsAt [.x b m, .fin] (startOf i s) := hm ▸ standsAt_start rfl
  rw [exec_eq_enterFrom hw, hm, run_op (s := startOf i s) hv hat (by simp) hr hl, enterFrom,
    enterEnd_of_command (progOf_ne_init i)]
  rfl

theorem startOf_xferC (b : Byte) (s : State) : startOf (.xferC b) s = { s with
    opData := b, opM := false, opLine := 0#2, opCount := 0x0#4 ++ b, prog := .xfer, pidx := 0#4 } := by
  simp [startOf, latch, progOf]

theorem startOf_xferD (b : Byte) (s : State) : startOf (.xferD b) s = { s with
    opData := b, opM := true, opLine := 1#2, opCount := 0x1#4 ++ b, prog := .xfer, pidx := 0#4 } := by
  simp [startOf, latch, progOf]

end Sys2Proof.Machine

/-! PROOFS. What an edge makes begin: a sleep with its cycles in the timer, and a settle phase where a line changes
(41_byte_transfer.md R136, R140; 70_reset_and_hazards.md R261). -/

namespace Sys2Proof.Machine

open Safety

/-! ### The waits that an edge begins -/

/-- Micro-operations that are all passed over to `END` make no event, `CFG` aside (41_byte_transfer.md R131). -/
theorem enterFrom_idle_trace {us : List MicroOp} {s t : State} (hcfg : NoCfg us) (h : enterFrom us s = .next t)
    (hs : t.st = .idle) : t.trace = s.trace := by
  induction us generalizing s with
  | nil => simp [enterFrom] at h
  | cons u us ih =>
    have hrest : NoCfg us := fun hm => hcfg (List.mem_cons_of_mem _ hm)
    cases u with
    | cfg => exact absurd List.mem_cons_self hcfg
    | x b m =>
      obtain rfl : enterX b m s = t := by simpa [enterFrom] using h
      simp at hs
    | w n r =>
      by_cases hn : n = 0
      · exact ih (s := nextIdx s) hrest (by rwa [enterFrom_skip us r s hn] at h)
      · obtain rfl : enterW n r s = t := by simpa [enterFrom_wait us r s hn] using h
        simp at hs
    | fin =>
      obtain rfl : enterEnd s = t := by simpa [enterFrom] using h
      rfl

/-- The sleep in progress, the timer loaded for it, and the micro-operation it belongs to: the settle time of a
transfer, or a wait (41_byte_transfer.md R131). -/
def Sleeping (c : Config) (us : List MicroOp) (r : Ratio) (n : Nat) : Prop :=
  ((∃ b m, MicroOp.x b m ∈ us) ∧ r = c.tSettle ∧ n = c.nSettle) ∨ MicroOp.w n r ∈ us

theorem Sleeping.mono {c : Config} {us vs : List MicroOp} {r : Ratio} {n : Nat} (h : Sleeping c us r n)
    (hsub : us ⊆ vs) : Sleeping c vs r n := by
  rcases h with ⟨⟨b, m, hx⟩, hr, hn⟩ | hw
  · exact .inl ⟨⟨b, m, hsub hx⟩, hr, hn⟩
  · exact .inr (hsub hw)

/-- Entering micro-operations ends IDLE or begins a sleep, which is then the last event (41_byte_transfer.md R140). -/
theorem enterFrom_sleeping {us : List MicroOp} {s t : State} (h : enterFrom us s = .next t) (hs : t.st ≠ .idle) :
    ∃ r, t.trace.getLast? = some (.sleep r) ∧ Sleeping s.cfg us r t.cnt := by
  induction us generalizing s with
  | nil => simp [enterFrom] at h
  | cons u us ih =>
    cases u with
    | cfg =>
      obtain ⟨r, hlast, hsleep⟩ := ih h
      exact ⟨r, hlast, hsleep.mono (List.subset_cons_self _ _)⟩
    | x b m =>
      obtain rfl : enterX b m s = t := by simpa [enterFrom] using h
      have hlast : (enterX b m s).trace.getLast? = some (.sleep s.cfg.tSettle) := by
        rw [enterX_trace, ← List.append_assoc, List.getLast?_concat]
      exact ⟨s.cfg.tSettle, hlast, .inl ⟨⟨b, m, List.mem_cons_self⟩, rfl, rfl⟩⟩
    | w n r =>
      by_cases hn : n = 0
      · obtain ⟨q, hlast, hsleep⟩ := ih (s := nextIdx s) (by rwa [enterFrom_skip us r s hn] at h)
        exact ⟨q, hlast, hsleep.mono (List.subset_cons_self _ _)⟩
      · obtain rfl : enterW n r s = t := by simpa [enterFrom_wait us r s hn] using h
        exact ⟨r, by simp, .inr List.mem_cons_self⟩
    | fin =>
      obtain rfl : enterEnd s = t := by simpa [enterFrom] using h
      simp at hs

/-- The engine sleeps: the last event is the `Sleep` in progress, and the timer holds its cycles, those of R202 for
DELAY (41_byte_transfer.md R140 (b)). -/
def SleepLoaded (s : State) : Prop :=
  (s.st = .nib ∨ s.st = .wait)
  ∧ ∃ r, s.trace.getLast? = some (.sleep r)
    ∧ (s.prog ≠ .delay → s.cnt = r.ceilMul s.cfg.fClk)
    ∧ (s.prog = .delay → r = Ratio.scale s.opCount.toNat s.cfg.tUnit ∧ s.cnt = s.opCount.toNat * s.cfg.nUnit)

/-- DELAY's program holds no transfer (30_encoding.md R80). -/
theorem prog_ne_delay_of_transfer {s : State} {b : Byte} {m : Bool} (h : MicroOp.x b m ∈ microProg s) :
    s.prog ≠ .delay := by
  intro hp
  simp [microProg, hp] at h

/-- The sleeps of a micro-program load `ceil(t * F_CLK)`, DELAY's `COUNT * N_UNIT` (30_encoding.md R80; 45_control.md
R202). -/
theorem sleeping_microProg {s : State} {r : Ratio} {n : Nat} (h : Sleeping s.cfg (microProg s) r n) :
    (s.prog ≠ .delay → n = r.ceilMul s.cfg.fClk)
    ∧ (s.prog = .delay → r = Ratio.scale s.opCount.toNat s.cfg.tUnit ∧ n = s.opCount.toNat * s.cfg.nUnit) := by
  rcases h with ⟨⟨b, m, hx⟩, rfl, rfl⟩ | hw
  · exact ⟨fun _ => rfl, fun hp => absurd hp (prog_ne_delay_of_transfer hx)⟩
  · cases hp : s.prog <;> simp [microProg, hp] at hw
    case init => obtain ⟨rfl, rfl⟩ := hw; exact ⟨fun _ => rfl, by simp⟩
    case clear => obtain ⟨rfl, rfl⟩ := hw; exact ⟨fun _ => rfl, by simp⟩
    case delay => obtain ⟨rfl, rfl⟩ := hw; exact ⟨by simp, fun _ => ⟨rfl, rfl⟩⟩

/-- Entering any part of the current micro-program other than its end begins a sleep and loads its cycles. -/
theorem sleepLoaded_of_enterFrom {us : List MicroOp} {s t : State} (hsub : us ⊆ microProg s)
    (h : enterFrom us s = .next t) (hs : t.st ≠ .idle) : SleepLoaded t := by
  have r := enterFrom_entered h
  obtain ⟨d, hlast, hsleep⟩ := enterFrom_sleeping h hs
  obtain ⟨-, -, -, hcount⟩ := r.latches
  refine ⟨?_, d, hlast, ?_⟩
  · rcases r.place with hi | hw | ⟨hn, -⟩
    · exact absurd hi hs
    · exact .inr hw
    · exact .inl hn
  · rw [r.prog, r.cfg, hcount]
    exact sleeping_microProg (hsleep.mono hsub)

/-- A transfer in progress is no DELAY. -/
theorem Safety.EngineInv.prog_ne_delay {s : State} (hi : EngineInv s) (hs : s.st = .nib) : s.prog ≠ .delay := by
  obtain ⟨-, -, -, hop, -⟩ := hi.nib hs
  exact prog_ne_delay_of_transfer (List.mem_of_getElem? hop)

/-- An edge that makes events begins a sleep and loads its cycles (41_byte_transfer.md R140 (b)). -/
theorem edge_sleepLoaded {p : Ports} {s t : State} (hi : EngineInv s) (hp : p.rst = false) (h : edge p s = .next t)
    (htrace : t.trace ≠ s.trace) : SleepLoaded t := by
  cases edge_cases hp h with
  | stays _ _ ht => exact absurd (congrArg State.trace ht) htrace
  | reserved _ _ _ _ ht => exact absurd (congrArg State.trace ht) htrace
  | accepts _ _ i hd ht =>
    rw [exec_eq_enterFrom (wf_of_decode hd)] at ht
    exact sleepLoaded_of_enterFrom (List.Subset.refl _) ht fun hs =>
      htrace (enterFrom_idle_trace (s := startOf i s) (microProg_noCfg (progOf_ne_init i)) ht hs)
  | boots _ ht => exact sleepLoaded_of_enterFrom (List.Subset.refl _) ht (bootArm_busy ht)
  | counts _ _ ht => exact absurd (congrArg State.trace ht) htrace
  | raises hs _ _ ht =>
    subst ht
    exact ⟨.inl hs, s.cfg.tPulse, by simp, fun _ => rfl, fun hd => absurd hd (hi.prog_ne_delay hs)⟩
  | lowers hs _ _ ht =>
    subst ht
    exact ⟨.inl hs, s.cfg.tSettle, by simp, fun _ => rfl, fun hd => absurd hd (hi.prog_ne_delay hs)⟩
  | switches hs _ _ _ ht =>
    subst ht
    exact ⟨.inl hs, s.cfg.tSettle, by simp, fun _ => rfl, fun hd => absurd hd (hi.prog_ne_delay hs)⟩
  | goesOn hs _ ht =>
    have hidx : (nextIdx s).pidx.toNat = s.pidx.toNat + 1 := by
      have := hi.pidx
      simp only [nextIdx_pidx, BitVec.toNat_add, BitVec.toNat_ofNat]
      omega
    rw [nextOp, hidx] at ht
    exact sleepLoaded_of_enterFrom (List.drop_subset _ _) ht fun hidle =>
      htrace (enterFrom_idle_trace (s := nextIdx s) (microProg_noCfg_tail _ _) ht hidle)

/-! ### Enable and the lines around it -/

theorem Safety.EngineInv.enable_iff {s : State} (hi : EngineInv s) : s.e = true ↔ s.st = .nib ∧ s.ph = .pulse := by
  simp [hi.enable]

/-- Outside the pulse phases of a transfer Enable is low (41_byte_transfer.md R136). -/
theorem Safety.EngineInv.enable_low {s : State} (hi : EngineInv s) (h : s.st ≠ .nib ∨ s.ph ≠ .pulse) :
    s.e = false := by
  rw [Bool.eq_false_iff, ne_eq, hi.enable_iff]
  tauto

/-- RS and the data lines stand between two states, or Enable is low and a settle phase of `N_SETTLE` begins
(70_reset_and_hazards.md R261). -/
def DataSettles (s t : State) : Prop :=
  (t.rs = s.rs ∧ t.d = s.d)
  ∨ (s.e = false ∧ t.e = false ∧ t.st = .nib ∧ t.ph = .pre ∧ t.cnt = s.cfg.nSettle)

/-- Entering a micro-program with Enable low writes RS and the data lines only to begin a transfer. -/
theorem Entered.dataSettles {us : List MicroOp} {s t : State} (h : Entered us s t) (he : s.e = false) :
    DataSettles s t := by
  by_cases hs : t.st = .nib
  · rcases h.place with hp | hp | ⟨-, -, hph, hcnt⟩
    · simp [hs] at hp
    · simp [hs] at hp
    · exact .inr ⟨he, h.enable.trans he, hs, hph, hcnt⟩
  · obtain ⟨hrs, hd, -⟩ := h.datapath hs
    exact .inl ⟨hrs, hd⟩

/-- Every edge without reset keeps the data lines away from Enable (41_byte_transfer.md R136). -/
theorem edge_dataSettles {p : Ports} {s t : State} (hi : EngineInv s) (hp : p.rst = false)
    (h : edge p s = .next t) : DataSettles s t := by
  cases edge_cases hp h with
  | stays _ _ ht => exact .inl (by simp [ht])
  | reserved _ _ _ _ ht => exact .inl (by simp [ht])
  | accepts hs _ _ _ ht => exact (exec_entered ht).2.dataSettles (hi.enable_low (by simp [hs]))
  | boots hs ht => exact (bootArm_entered ht).dataSettles (hi.enable_low (by simp [hs]))
  | counts _ _ ht => exact .inl (by simp [ht])
  | raises _ _ _ ht => exact .inl (by simp [ht])
  | lowers _ _ _ ht => exact .inl (by simp [ht])
  | switches hs _ hph _ ht =>
    subst ht
    have he : s.e = false := hi.enable_low (by simp [hph])
    exact .inr ⟨he, he, hs, rfl, rfl⟩
  | goesOn hs _ ht =>
    refine (nextOp_entered ht).dataSettles (hi.enable_low ?_)
    rcases hs with ⟨-, hph, -⟩ | hs
    · simp [hph]
    · simp [hs]

/-- Only the end of a pulse lowers Enable (41_byte_transfer.md R133, R136). -/
theorem edge_enable_falls {p : Ports} {s t : State} (hi : EngineInv s) (hp : p.rst = false) (h : edge p s = .next t)
    (he : s.e = true) (hlow : t.e = false) : s.st = .nib ∧ t = lowerEnable s := by
  obtain ⟨hs, hph⟩ := hi.enable_iff.1 he
  rcases Nat.lt_or_ge 1 s.cnt with hc | hc
  · obtain rfl : { s with cnt := s.cnt - 1 } = t := by simpa [edge_count hp (.inl hs) hc] using h
    simp [he] at hlow
  · refine ⟨hs, ?_⟩
    simpa [edge_of_phase_end hp hs hc, phaseEnd_pulse hph] using h.symm

end Sys2Proof.Machine

/-! PROOFS. The statements of 41_byte_transfer.md. -/

namespace Sys2Proof.Proofs

open Sys2Proof.Machine Sys2Proof.Machine.Safety

/-- Settles O11: the program of XFER.C is one transfer, run from its accepting edge to its `END`. -/
theorem xferCCompletes : Obligations.XferCCompletes := by
  intro b s hv
  have hstart := startOf_xferC b s
  have hm : microProg (startOf (.xferC b) s) = [.x b false, .fin] := by rw [hstart]; rfl
  refine ⟨word_eq_add (encode_xferC_toNat b), rfl, ⟨_, by rw [exec_one_transfer rfl hm, hstart]; rfl⟩,
    fun ps hr hl => ?_⟩
  rw [run_one_transfer hv rfl hm hr hl, hstart]
  rfl

/-- Settles O12: the program of XFER.D is one transfer, with RS = 1. -/
theorem xferDCompletes : Obligations.XferDCompletes := by
  intro b s hv
  have hstart := startOf_xferD b s
  have hm : microProg (startOf (.xferD b) s) = [.x b true, .fin] := by rw [hstart]; rfl
  refine ⟨word_eq_add (encode_xferD_toNat b), rfl, ⟨_, by rw [exec_one_transfer rfl hm, hstart]; rfl⟩,
    fun ps hr hl => ?_⟩
  rw [run_one_transfer hv rfl hm hr hl, hstart]
  rfl

/-- Settles O20: every edge of a transfer lies in one of the six phases, each at its place. -/
theorem transferWaveform : Obligations.TransferWaveform := by
  intro b m s ps hv he hr hl k S P
  obtain ⟨j, r, hj, hlt, hk, hrun⟩ := in_transfer b m hv hr hl
  obtain ⟨-, hoe, hrs, hbyte, -⟩ := afterPhase_keeps b m s j
  obtain ⟨hhalf, hph⟩ := afterPhase_half_ph b m s hj
  obtain ⟨hd, -⟩ := afterPhase_lines b m s hj
  have before : ∀ i, i ≤ 5 → (k < phaseStart s.cfg i ↔ j < i) := fun i => lt_phaseStart_iff hlt hk
  have h1 : k < S ↔ j < 1 := before 1 (by decide)
  have h2 : k < S + P ↔ j < 2 := before 2 (by decide)
  have h3 : k < 2 * S + P ↔ j < 3 := before 3 (by decide)
  have h4 : k < 3 * S + P ↔ j < 4 := before 4 (by decide)
  have h5 : k < 3 * S + 2 * P ↔ j < 5 := before 5 (by decide)
  have hpulse : (j = 1 ∨ j = 4) ↔ (S ≤ k ∧ k < S + P) ∨ (3 * S + P ≤ k ∧ k < 3 * S + 2 * P) := by
    rw [← not_lt, ← not_lt, h1, h2, h4, h5]
    omega
  refine ⟨_, hrun, afterPhase_st b m s j, hoe, hrs, hbyte, ?_, ?_, ?_, ?_⟩
  · simp only [hhalf, h3]
  · simp only [hph, h1, h2, h3, h4, h5]
  · simp only [hd, h3, Nat.lt_succ_iff]
    rfl
  · exact (afterPhase_enable b m hj he).trans (decide_eq_decide.2 hpulse)

/-- Settles O24: the run of a phase or a wait in closed form, and the invariant's bound on the timer. -/
theorem phaseLastsItsCount : Obligations.PhaseLastsItsCount := by
  intro s ps hb hc hr
  refine ⟨run_count hr hb, fun hl hs => run_phase hr hs hl hc, fun hl hs => run_wait hr hs hl hc, fun t hi ht => ?_⟩
  rcases ht with ht | ht
  · obtain ⟨-, hpos, -⟩ := hi.nib ht
    omega
  · obtain ⟨-, hpos, -⟩ := hi.wait ht
    omega

/-- Settles O26: an edge with events begins a sleep, and the configuration is the same after it. -/
theorem sleepsAreRealized : Obligations.SleepsAreRealized := by
  intro p s t hi hp h htrace
  rw [← (edge_keeps_outside h).1]
  exact edge_sleepLoaded hi hp h htrace

/-- Settles O27: the edge applies what it appends, and no events change no line. -/
theorem groupsApplyAtOneEdge : Obligations.GroupsApplyAtOneEdge := by
  intro p s t hp h
  obtain ⟨-, -, -, evs, htrace, hlines⟩ := edge_emits hp h
  exact ⟨evs, htrace, hlines, fun hnone => by rw [hlines, hnone, applyAll_nil]⟩

/-- Settles O30: the writes of R122 are `dataEvents`, and the rest is what the lists do and hold. -/
theorem transferEventList : Obligations.TransferEventList :=
  fun c b m n l => ⟨rfl, applyAll_dataEvents l n, rfl, xfer_length c b m, pulses_xfer c b m, applyAll_xfer c l b m⟩

/-- Settles O34: a host with no move that presents a command leaves `cmd_valid` at 0, and an edge adds no move. -/
theorem idleKeepsEverything : Obligations.IdleKeepsEverything := by
  refine ⟨fun p s hr hv hs => edge_of_quiet hr hv hs,
    fun s => by rw [runOver_iff, presents_none_iff], fun s t hover hr h => ?_⟩
  obtain ⟨hs, hinit, hquiet⟩ := (runOver_iff s).1 hover
  obtain ⟨-, -, u, hu, rfl⟩ := step_next h
  obtain rfl : s = u := by simpa [edge_of_quiet hr (cmdValid_of_presents_none hquiet) hs] using hu
  exact ⟨(runOver_iff _).2 ⟨hs, hinit, fun mv hm => hquiet mv (mem_of_mem_hostAfter hm)⟩, rfl⟩

/-- Settles O38: the edge is total under the invariant, and a step in a valid configuration is the edge. -/
theorem engineNeverBlocks : Obligations.EngineNeverBlocks := by
  refine fun s hi => ⟨fun p => edge_total p hi, fun hd => ?_⟩
  obtain ⟨t, ht⟩ := edge_total (hostPorts s) hi
  exact ⟨_, by rw [step_eq_edge hi.valid hd, ht, andThen_next]⟩

/-- Settles O41: the data lines settle at every edge, and only the end of a pulse lowers Enable. -/
theorem dataStableAroundEnable : Obligations.DataStableAroundEnable := by
  intro p s t hi hp h
  refine ⟨(edge_keeps_inv hi h).enable_iff, fun hchange => ?_, fun he hlow => ?_⟩
  · refine (edge_dataSettles hi hp h).resolve_left fun ⟨hrs, hd⟩ => ?_
    exact hchange.elim (absurd hrs) (absurd hd)
  · obtain ⟨hs, rfl⟩ := edge_enable_falls hi hp h he hlow
    exact ⟨rfl, rfl, hs, rfl, rfl⟩

/-- Settles O6: the edge of an offered legal word is its command's. -/
theorem stepRunsDecodedInstruction : Obligations.StepRunsDecodedInstruction := by
  intro s i hv hs hr hvalid hd
  have hacc : accepts (hostPorts s) s = true := (accepts_iff _ s).2 ⟨hvalid, hs, hr⟩
  rw [step_eq_edge hv (drivesLine_of_cmdValid hvalid), edge_of_legal hr hvalid hs hd, hacc]
  rfl

/-- Settles O7: what `step` checks before the edge holds. -/
theorem stepIsOneEdge : Obligations.StepIsOneEdge := fun _ hv hd => step_eq_edge hv hd

/-- Settles O25: the last edge of a phase is `phaseEnd`, read off for each phase. -/
theorem phaseEndRules : Obligations.PhaseEndRules := by
  intro p s hp hs hc
  rw [edge_of_phase_end hp hs hc]
  exact ⟨fun hph => ⟨_, phaseEnd_pre hph⟩, fun hph => ⟨_, phaseEnd_pulse hph⟩,
    fun hph hh => ⟨_, phaseEnd_post_hi hph hh⟩, fun hph hh => phaseEnd_post_lo hph hh⟩

end Sys2Proof.Proofs

/-! PROOFS. LINE beside XFER.C: two commands of the same transfer go alike at every edge (42_line_addressing.md R150,
R151). -/

namespace Sys2Proof.Machine

open Safety

/-! ### Two transfers of the same byte -/

/-- Where an edge lies in a transfer is one of the six phases only (41_byte_transfer.md R130). -/
theorem phase_unique {c : Config} {j j' r r' : Nat} (hj : j ≤ 5) (hj' : j' ≤ 5)
    (hr : r < if j = 1 ∨ j = 4 then c.nPulse else c.nSettle)
    (hr' : r' < if j' = 1 ∨ j' = 4 then c.nPulse else c.nSettle)
    (h : phaseStart c j + r = phaseStart c j' + r') : j = j' := by
  have before : ∀ i, i ≤ 5 → (j < i ↔ j' < i) := fun i hi =>
    (lt_phaseStart_iff hr rfl hi).symm.trans (lt_phaseStart_iff hr' h hi)
  have := before j hj
  have := before j' hj'
  omega

/-- The lines in a phase of a transfer depend on the lines it was entered with only. -/
theorem afterPhase_lines_congr (b : Byte) (m : Bool) {s t : State} {j : Nat} (hj : j ≤ 5) (hl : s.lines = t.lines) :
    (afterPhase b m s j).lines = (afterPhase b m t j).lines := by
  obtain ⟨hoe, -, he, -⟩ := Lines.mk.inj hl
  obtain ⟨-, hsoe, hsrs, -⟩ := afterPhase_keeps b m s j
  obtain ⟨-, htoe, htrs, -⟩ := afterPhase_keeps b m t j
  obtain ⟨hsd, hse⟩ := afterPhase_lines b m s hj
  obtain ⟨htd, hte⟩ := afterPhase_lines b m t hj
  rw [State.lines, State.lines, hsoe, hsrs, hsd, hse, htoe, htrs, htd, hte, hoe, he]

/-- The trace in a phase of a transfer depends on the configuration and the trace it was entered with only. -/
theorem afterPhase_trace_congr (b : Byte) (m : Bool) {s t : State} {j : Nat} (hj : j ≤ 5) (hc : s.cfg = t.cfg)
    (htr : s.trace = t.trace) : (afterPhase b m s j).trace = (afterPhase b m t j).trace := by
  interval_cases j <;> simp [afterPhase, endOfPhase, hc, htr]

/-- Before their last edge, transfers of the same byte entered with equal configuration, lines and trace go alike. -/
theorem in_transfer_congr (b : Byte) (m : Bool) {s t : State} {ps : List Ports} (hv : s.cfg.valid = true)
    (hc : s.cfg = t.cfg) (hl : s.lines = t.lines) (htr : s.trace = t.trace) (hr : NoReset ps)
    (hlt : ps.length < s.cfg.transferCycles) :
    ∃ u v, runEdges ps (enterX b m s) = .next u ∧ runEdges ps (enterX b m t) = .next v
      ∧ u.lines = v.lines ∧ u.trace = v.trace ∧ u.st = v.st := by
  obtain ⟨j, r, hj, hlong, hk, hrun⟩ := in_transfer b m hv hr hlt
  obtain ⟨j', r', hj', hlong', hk', hrun'⟩ := in_transfer b m (hc ▸ hv) hr (hc ▸ hlt)
  obtain rfl : j = j' := phase_unique hj hj' hlong (hc ▸ hlong') (hk.symm.trans (hc ▸ hk'))
  exact ⟨_, _, hrun, hrun', afterPhase_lines_congr b m hj hl, afterPhase_trace_congr b m hj hc htr,
    (afterPhase_st b m s j).trans (afterPhase_st b m t j).symm⟩

/-- Two commands whose program is the same one transfer go alike up to its last edge, where both are IDLE. -/
theorem run_one_transfer_congr {i i' : Instr} {s : State} {b : Byte} {m : Bool} {ps : List Ports}
    (hv : s.cfg.valid = true) (hw : i.wf = true) (hw' : i'.wf = true)
    (hm : microProg (startOf i s) = [.x b m, .fin]) (hm' : microProg (startOf i' s) = [.x b m, .fin])
    (hr : NoReset ps) (hl : ps.length ≤ s.cfg.transferCycles) :
    ∃ t u, andThen (exec i s) (runEdges ps) = .next t ∧ andThen (exec i' s) (runEdges ps) = .next u
      ∧ t.lines = u.lines ∧ t.trace = u.trace ∧ t.st = u.st := by
  rcases hl.lt_or_eq with hlt | heq
  · rw [exec_one_transfer hw hm, exec_one_transfer hw' hm']
    exact in_transfer_congr b m (s := startOf i s) (t := startOf i' s) hv rfl rfl rfl hr hlt
  · exact ⟨_, _, run_one_transfer hv hw hm hr heq, run_one_transfer hv hw' hm' hr heq, rfl, rfl, rfl⟩

/-! ### The programs of LINE and XFER.C -/

theorem microProg_startOf_line (n : Nat) (s : State) :
    microProg (startOf (.line n) s) = [.x (lineBase s.cfg n) false, .fin] := by
  simp [startOf, progOf, microProg, lineBase]

theorem microProg_startOf_xferC (b : Byte) (s : State) : microProg (startOf (.xferC b) s) = [.x b false, .fin] := by
  simp [startOf, progOf, microProg]

/-- The word of LINE n for n = 1..4 (42_line_addressing.md R150). -/
theorem encode_line {n : Nat} (h1 : 1 ≤ n) (h4 : n ≤ 4) :
    encode (.line n) = BitVec.ofNat 16 (0x2000 + (n - 1) * 0x100) := by
  apply BitVec.eq_of_toNat_eq
  rw [encode_line_toNat, BitVec.toNat_ofNat]
  omega

end Sys2Proof.Machine

/-! PROOFS. The statements of 42_line_addressing.md. -/

namespace Sys2Proof.Proofs

open Sys2Proof.Machine Sys2Proof.Machine.Safety

/-- Settles O13: the program of LINE is one transfer of its base byte, run from its accepting edge to its `END`. -/
theorem lineCompletes : Obligations.LineCompletes := by
  intro n s hv h1 h4 base
  have hbase : base = lineBase s.cfg n := by unfold base; interval_cases n <;> rfl
  have hw : (Instr.line n).wf = true := decide_eq_true ⟨h1, h4⟩
  have hm : microProg (startOf (.line n) s) = [.x base false, .fin] := hbase ▸ microProg_startOf_line n s
  exact ⟨encode_line h1 h4, by rw [hbase]; rfl, ⟨_, exec_one_transfer hw hm⟩,
    fun ps hr hl => run_one_transfer hv hw hm hr hl⟩

/-- Settles O19: LINE n and XFER.C of its base byte are commands of the same transfer. -/
theorem lineActsAsXferC : Obligations.LineActsAsXferC := fun n s _ hv h1 h4 hr hl =>
  run_one_transfer_congr hv (decide_eq_true ⟨h1, h4⟩) rfl (microProg_startOf_line n s) (microProg_startOf_xferC _ s)
    hr hl

end Sys2Proof.Proofs

/-! PROOFS. What the composer's operations do: the three paddings, a text in a style, and the parts of a message
(43_text_composition.md R160 to R178). -/

namespace Sys2Proof

/-- A quotient's ceiling is that of the product with the inverse (43_text_composition.md R168). -/
theorem Ratio.ceilDiv_eq_ceil {a b : Ratio} (ha : 0 < a.den) (hb : 0 < b.num) :
    a.ceilDiv b = ⌈(a.num : ℚ) / a.den / ((b.num : ℚ) / b.den)⌉₊ := by
  have hinv : a.ceilDiv b = a.ceilMul ⟨b.den, b.num⟩ := rfl
  rw [hinv, Ratio.ceilMul_eq_ceil ha hb, div_eq_mul_inv _ ((b.num : ℚ) / b.den), inv_div]

end Sys2Proof

namespace Sys2Proof.Machine

/-! ### Padding -/

@[simp] theorem length_spaces (k : Nat) : (spaces k).length = k := List.length_replicate

theorem mem_spaces {ch : Char} {k : Nat} (h : ch ∈ spaces k) : ch = ' ' := List.eq_of_mem_replicate h

/-- Every padding puts spaces before and after the text, as many as make it `WIDTH` characters. -/
theorem pad_of_fits (style : Style) {c : Config} {s : List Char} (h : s.length ≤ c.width) :
    ∃ i j, pad c style s = some (spaces i ++ s ++ spaces j) ∧ i + s.length + j = c.width := by
  cases style with
  | left | typed => exact ⟨0, c.width - s.length, by simp [pad, padL, h, spaces], by omega⟩
  | center => exact ⟨_, _, if_pos h, by omega⟩
  | right => exact ⟨c.width - s.length, 0, by simp [pad, padR, h, spaces], by omega⟩

/-- Every padding refuses a longer text (43_text_composition.md R164). -/
theorem pad_of_too_long (style : Style) {c : Config} {s : List Char} (h : c.width < s.length) :
    pad c style s = none := by
  cases style <;> exact if_neg (Nat.not_le.2 h)

/-- A padded text is the text between spaces, `WIDTH` characters in all. -/
theorem pad_eq_some {style : Style} {c : Config} {s t : List Char} (h : pad c style s = some t) :
    ∃ i j, t = spaces i ++ s ++ spaces j ∧ t.length = c.width := by
  rcases Nat.lt_or_ge c.width s.length with hlong | hfits
  · simp [pad_of_too_long style hlong] at h
  · obtain ⟨i, j, hp, hl⟩ := pad_of_fits style hfits
    obtain rfl := Option.some.inj (hp.symm.trans h)
    exact ⟨i, j, rfl, by simp [← hl, Nat.add_assoc]⟩

/-- A text of `WIDTH` characters needs no space, so every padding returns it unchanged (43_text_composition.md R165). -/
theorem pad_of_full (style : Style) {c : Config} {s : List Char} (h : s.length = c.width) :
    pad c style s = some s := by
  obtain ⟨i, j, hp, hl⟩ := pad_of_fits style h.le
  obtain ⟨rfl, rfl⟩ : i = 0 ∧ j = 0 := by omega
  simpa [spaces] using hp

theorem codeOk_iff (ch : Char) : codeOk ch = true ↔ ch.toNat ≤ 0xFF := decide_eq_true_iff

theorem all_codeOk_spaces (k : Nat) : (spaces k).all codeOk = true :=
  List.all_eq_true.2 fun _ h => mem_spaces h ▸ rfl

/-- A space can be sent, so a padded text can be sent exactly when the text itself can. -/
theorem all_codeOk_of_pad {style : Style} {c : Config} {s t : List Char} (h : pad c style s = some t) :
    t.all codeOk = s.all codeOk := by
  obtain ⟨i, j, rfl, -⟩ := pad_eq_some h
  simp [List.all_append, all_codeOk_spaces]

/-! ### The commands of a text -/

/-- A text the composer can pad and send gives the commands of its padded characters, in order
(43_text_composition.md R172 to R175). -/
theorem expandText_of_sendable {c : Config} {style : Style} {s t : List Char} (v : Option Ratio)
    (hp : pad c style s = some t) (hs : ∀ ch ∈ s, ch.toNat ≤ 0xFF) :
    expandText c style v s = .emits (t.flatMap (charCommands c style v)) := by
  have hall : t.all codeOk = true :=
    (all_codeOk_of_pad hp).trans (List.all_eq_true.2 fun ch h => (codeOk_iff ch).2 (hs ch h))
  simp only [expandText, hp, hall, if_true]

/-- A text is refused exactly when it is too long or a character has no code (43_text_composition.md R164, R166). -/
theorem expandText_refuses_iff (c : Config) (style : Style) (v : Option Ratio) (s : List Char) :
    (∃ why, expandText c style v s = .refuses why) ↔ c.width < s.length ∨ ∃ ch ∈ s, 0xFF < ch.toNat := by
  rcases Nat.lt_or_ge c.width s.length with hlong | hfits
  · simp [expandText, pad_of_too_long style hlong, hlong]
  obtain ⟨i, j, hp, -⟩ := pad_of_fits style hfits
  by_cases hs : ∀ ch ∈ s, ch.toNat ≤ 0xFF
  · simpa [expandText_of_sendable v hp hs, Nat.not_lt.2 hfits] using hs
  · have hbad : s.all codeOk = false := by simpa [List.all_eq_false, codeOk] using hs
    have hex : ∃ ch ∈ s, 0xFF < ch.toNat := by simpa using hs
    simp [expandText, hp, hbad, hex]

/-- Without Typed style a character is its `XFER.D` alone (43_text_composition.md R172 to R174). -/
theorem charCommands_of_not_typed {style : Style} (h : style ≠ .typed) (c : Config) (v : Option Ratio) (ch : Char) :
    charCommands c style v ch = [sendChar ch] := by
  simp [charCommands, h]

/-- Typed style waits after a character that is not a space (43_text_composition.md R175). -/
theorem charCommands_typed (c : Config) (v : Option Ratio) (ch : Char) :
    charCommands c .typed v ch = sendChar ch :: (if ch = ' ' then [] else delayCommands (typedUnits c v)) := by
  by_cases h : ch = ' ' <;> simp [charCommands, isSpace, h]

@[simp] theorem isDelay_sendChar (ch : Char) : isDelay (sendChar ch) = false := rfl

theorem isDelay_of_mem_delayCommands {u : Nat} {i : Instr} (h : i ∈ delayCommands u) : isDelay i = true := by
  rcases List.mem_append.1 h with h | h
  · rw [List.eq_of_mem_replicate h]; rfl
  · split at h
    · rw [List.mem_singleton.1 h]; rfl
    · cases h

/-- Whatever the style, a character's one command that is no DELAY is its `XFER.D`. -/
theorem filter_charCommands (c : Config) (style : Style) (v : Option Ratio) (ch : Char) :
    (charCommands c style v ch).filter (fun i => !isDelay i) = [sendChar ch] := by
  have hnone : (delayCommands (typedUnits c v)).filter (fun i => !isDelay i) = [] :=
    List.filter_eq_nil_iff.2 fun i hi => by simp [isDelay_of_mem_delayCommands hi]
  by_cases h : style = .typed
  · rw [h, charCommands_typed, List.filter_cons_of_pos (by simp)]
    split
    · rfl
    · rw [hnone]
  · simp [charCommands_of_not_typed h]

/-- The DELAY commands of `u` units wait `u` units in all (43_text_composition.md R168). -/
theorem sum_unitsOf_delayCommands (u : Nat) : ((delayCommands u).map unitsOf).sum = u := by
  have hrest : ((if 0 < u % 4095 then [Instr.delay (BitVec.ofNat 12 (u % 4095))] else []).map unitsOf).sum
      = u % 4095 := by
    split
    · simp only [List.map_singleton, List.sum_singleton, unitsOf, BitVec.toNat_ofNat]; omega
    · simp only [List.map_nil, List.sum_nil]; omega
  rw [delayCommands, List.map_append, List.sum_append, hrest, List.map_replicate, List.sum_replicate_nat]
  simp only [unitsOf, BitVec.toNat_ofNat]
  omega

/-! ### The parts of a message -/

theorem splitLines_lf (cs : List Char) : splitLines ('\n' :: cs) = [] :: splitLines cs := if_pos rfl

/-- The parts are the library's split at the line feed. -/
theorem splitLines_eq_splitOn (s : List Char) : splitLines s = s.splitOn '\n' := by
  induction s with
  | nil => rfl
  | cons ch cs ih =>
    obtain ⟨p, ps, hcs⟩ := List.exists_cons_of_ne_nil (List.splitOn_ne_nil '\n' cs)
    by_cases h : ch = '\n' <;> simp [splitLines, List.splitOn_cons_eq_if_modifyHead, h, ih, hcs]

/-- A character that is no line feed stands at the head of the first part (43_text_composition.md R177). -/
theorem splitLines_cons {ch : Char} (h : ch ≠ '\n') (cs : List Char) :
    ∃ p ps, splitLines cs = p :: ps ∧ splitLines (ch :: cs) = (ch :: p) :: ps := by
  have hne : splitLines cs ≠ [] := splitLines_eq_splitOn cs ▸ List.splitOn_ne_nil '\n' cs
  obtain ⟨p, ps, hcs⟩ := List.exists_cons_of_ne_nil hne
  exact ⟨p, ps, hcs, by simp [splitLines, h, hcs]⟩

theorem length_splitLines (s : List Char) : (splitLines s).length = s.count '\n' + 1 := by
  induction s with
  | nil => rfl
  | cons ch cs ih =>
    by_cases h : ch = '\n'
    · simp [h, splitLines_lf, ih]
    · obtain ⟨p, ps, hcs, hcons⟩ := splitLines_cons h cs
      rw [hcons, List.count_cons_of_ne h, ← ih, hcs, List.length_cons, List.length_cons]

theorem lf_notMem_splitLines (s : List Char) : ∀ p ∈ splitLines s, '\n' ∉ p := by
  induction s with
  | nil => simp [splitLines]
  | cons ch cs ih =>
    by_cases h : ch = '\n'
    · simpa [h, splitLines_lf] using ih
    · obtain ⟨p, ps, hcs, hcons⟩ := splitLines_cons h cs
      rw [hcs, List.forall_mem_cons] at ih
      rw [hcons, List.forall_mem_cons]
      exact ⟨List.not_mem_cons_of_ne_of_not_mem (Ne.symm h) ih.1, ih.2⟩

/-! ### WRITE and MSG -/

@[simp] theorem after_emits (is js : List Instr) : (Composed.emits js).after is = .emits (is ++ js) := rfl

/-- Commands put before a composition neither add nor lift a refusal (43_text_composition.md R178). -/
@[simp] theorem after_eq_refuses_iff {x : Composed} {is : List Instr} {why : ComposeRefusal} :
    x.after is = .refuses why ↔ x = .refuses why := by
  cases x <;> simp [Composed.after]

theorem expand_write {n : Nat} (h : 1 ≤ n ∧ n ≤ 4) (c : Config) (style : Style) (s : List Char) (v : Option Ratio) :
    expand c (.write n style s v) = (expandText c style v s).after [.line n] := if_pos h

theorem expand_write_bad_line {n : Nat} (h : ¬ (1 ≤ n ∧ n ≤ 4)) (c : Config) (style : Style) (s : List Char)
    (v : Option Ratio) : expand c (.write n style s v) = .refuses .lineNumber := if_neg h

/-- A message is refused exactly when one of its parts is (43_text_composition.md R178). -/
theorem expandParts_refuses_iff (c : Config) (style : Style) (v : Option Ratio) (i : Nat) (ps : List (List Char)) :
    (∃ why, expandParts c style v i ps = .refuses why)
      ↔ ∃ p ∈ ps, ∃ why, expandText c style v p = .refuses why := by
  induction ps generalizing i with
  | nil => simp [expandParts]
  | cons p ps ih =>
    rw [List.exists_mem_cons_iff, ← ih (i + 1), expandParts]
    cases expandText c style v p <;> simp

/-- Parts that all expand are sent in order, each after the addressing command of its place
(43_text_composition.md R176). -/
theorem expandParts_of_emits {c : Config} {style : Style} {v : Option Ratio} {ps : List (List Char)}
    {texts : List (List Instr)} (h : ps.map (expandText c style v) = texts.map .emits) (i : Nat) :
    expandParts c style v i ps
      = .emits ((texts.zipIdx i).map fun p => partAddress c p.2 ++ p.1).flatten := by
  induction ps generalizing texts i with
  | nil =>
    obtain rfl : texts = [] := by simpa using h.symm
    rfl
  | cons p ps ih =>
    cases texts with
    | nil => simp at h
    | cons js texts =>
      obtain ⟨hp, hps⟩ := List.cons.inj h
      simp [expandParts, hp, ih hps (i + 1)]

/-- The addressing command as a choice on the part's place (43_text_composition.md R176). -/
theorem partAddress_eq (c : Config) (i : Nat) :
    partAddress c i = if i = 0 then [.line 1] else if i = 1 then [.line 2]
      else if i = 2 ∧ c.extendLines = true then [.line 3]
      else if i = 3 ∧ c.extendLines = true then [.line 4] else [] := by
  match i with
  | 0 | 1 => rfl
  | 2 | 3 => simp [partAddress]
  | _ + 4 => simp [partAddress]

end Sys2Proof.Machine

/-! PROOFS. The statements of 43_text_composition.md. -/

namespace Sys2Proof.Proofs

open Sys2Proof.Machine

/-- Settles O51: a padded text has `WIDTH` characters, and such a text needs no space. -/
theorem paddingExactAndIdempotent : Obligations.PaddingExactAndIdempotent := by
  intro c style s h
  obtain ⟨i, j, hp, -⟩ := pad_of_fits style h
  obtain ⟨-, -, -, hl⟩ := pad_eq_some hp
  exact ⟨_, hp, hl, pad_of_full style hl⟩

/-- Settles O52: WRITE and MSG add to the refusals of a text the bad line only. -/
theorem composerRefusesExactly : Obligations.ComposerRefusesExactly := by
  intro c style s v n
  refine ⟨expandText_refuses_iff c style v s, ?_, ?_⟩
  · by_cases hn : 1 ≤ n ∧ n ≤ 4
    · simpa [expand_write hn, hn] using expandText_refuses_iff c style v s
    · simp [expand_write_bad_line hn, hn]
  · simp only [← expandText_refuses_iff c style v]
    exact expandParts_refuses_iff c style v 0 (splitLines s)

/-- Settles O54: the commands of a padded text, one for each character. -/
theorem textSendsEveryCharacter : Obligations.TextSendsEveryCharacter := by
  intro c style s t v hstyle hp hs
  obtain ⟨-, -, -, hl⟩ := pad_eq_some hp
  refine ⟨?_, hl⟩
  rw [expandText_of_sendable v hp hs, funext (charCommands_of_not_typed hstyle c v), ← List.map_eq_flatMap]
  rfl

/-- Settles O55: the units are an integer ceiling division, and the DELAYs are its quotient and remainder by 4095. -/
theorem typedDelayUnits : Obligations.TypedDelayUnits := by
  refine ⟨fun c v hv hd => Ratio.ceilDiv_eq_ceil hd (valid_tUnit hv), fun u => ⟨?_, sum_unitsOf_delayCommands u⟩⟩
  by_cases h : u % 4095 = 0 <;> simp [delayCommands, h, Nat.pos_iff_ne_zero]

/-- Settles O56: Typed pads as Left, and a character's only command that is no DELAY is its `XFER.D`. -/
theorem typedDelaysFollowNonSpaces : Obligations.TypedDelaysFollowNonSpaces := by
  intro c s t v hp hs
  refine ⟨_, expandText_of_sendable (style := .typed) v hp hs, ?_, ?_⟩
  · rw [funext (charCommands_typed c v), List.flatMap_def]
    rfl
  · simp only [List.filter_flatMap, filter_charCommands, ← List.map_eq_flatMap]
    rfl

/-- Settles O57: the parts are the library's split at the line feed, whose inverse is the join. -/
theorem messageParts : Obligations.MessageParts := fun s =>
  ⟨length_splitLines s, lf_notMem_splitLines s, splitLines_eq_splitOn s ▸ List.intercalate_splitOn '\n'⟩

/-- Settles O58: the parts of a message from place 0 on. -/
theorem messageAddressing : Obligations.MessageAddressing := by
  intro c style s v texts h
  simp only [← partAddress_eq c]
  exact expandParts_of_emits h 0

/-- Settles O50: each padding is its definition where the text fits; the right half of `padC` is the rest. -/
theorem paddingRules : Obligations.PaddingRules := by
  intro c s k
  have hhalf : (k + 1) / 2 = k - k / 2 := by omega
  exact ⟨fun h => ⟨if_pos h, if_pos h, hhalf ▸ if_pos h⟩,
    fun h => ⟨pad_of_too_long .left h, pad_of_too_long .center h, pad_of_too_long .right h⟩⟩

/-- Settles O53: WRITE in the line range puts its LINE before the text. -/
theorem writeAddressesThenSends : Obligations.WriteAddressesThenSends := by
  intro c n style s v is h1 h4 h
  have htext : expandText c style v s = .emits is := h
  rw [expand_write ⟨h1, h4⟩, htext, after_emits, List.singleton_append]

end Sys2Proof.Proofs

/-! PROOFS. A command at an edge of its program: what is entered after its first micro-operations, and the edges of a
wait; the program of CLEAR (41_byte_transfer.md R131, R134; 44_clear.md R190). -/

namespace Sys2Proof.Machine

open Safety

/-! ### A command part of the way -/

/-- A command that has run the cycles of its first micro-operations enters the one after them (41_byte_transfer.md
R131). -/
theorem run_command_ops {i : Instr} {us vs : List MicroOp} {s : State} {ps : List Ports} (hv : s.cfg.valid = true)
    (hw : i.wf = true) (hm : microProg (startOf i s) = us ++ vs) (hfin : MicroOp.fin ∉ us) (hr : NoReset ps)
    (hl : ps.length = opsCycles s.cfg us) :
    andThen (exec i s) (runEdges ps) = enterFrom vs (afterOps us (startOf i s)) := by
  have hat : StandsAt (us ++ vs) (startOf i s) := hm ▸ standsAt_start rfl
  rw [exec_eq_enterFrom hw, hm]
  exact run_first_ops (s := startOf i s) hv hat hfin hr hl

/-- Before the last cycle of a command's wait has passed only the timer moves (41_byte_transfer.md R134). -/
theorem run_command_wait {i : Instr} {us vs : List MicroOp} {n : Nat} {t : Ratio} {s : State} {ps : List Ports}
    (hv : s.cfg.valid = true) (hw : i.wf = true) (hm : microProg (startOf i s) = us ++ .w n t :: vs)
    (hfin : MicroOp.fin ∉ us) (hr : NoReset ps) (hlo : opsCycles s.cfg us ≤ ps.length)
    (hhi : ps.length < opsCycles s.cfg us + n) :
    andThen (exec i s) (runEdges ps) = .next
      { enterW n t (afterOps us (startOf i s)) with cnt := n - (ps.length - opsCycles s.cfg us) } := by
  obtain ⟨qs, rs, rfl, hq, hrs, hnq, hnr⟩ := split_edges (Nat.add_sub_cancel' hlo).symm hr
  have hshort : rs.length < n := by omega
  rw [← andThen_runEdges_append, run_command_ops hv hw hm hfin hnq hq,
    enterFrom_wait vs t _ (Nat.ne_zero_of_lt hshort), andThen_next, ← hrs]
  exact run_count hnr (.inr rfl) hshort

/-! ### The program of CLEAR -/

/-- The two transfers CLEAR begins with (44_clear.md R190). -/
def clearTransfers : List MicroOp := [.x 0x06 false, .x 0x01 false]

theorem startOf_clear (s : State) : startOf .clear s = { s with
    opData := 0#8, opM := false, opLine := 0#2, opCount := 0#12, prog := .clear, pidx := 0#4 } := rfl

theorem microProg_startOf_clear (s : State) :
    microProg (startOf .clear s) = clearTransfers ++ [.w s.cfg.nClear s.cfg.tClear, .fin] := rfl

/-- The accepting edge of CLEAR enters the transfer of 0x06 (44_clear.md R191). -/
theorem exec_clear (s : State) : exec .clear s = .next (enterX 0x06 false (startOf .clear s)) := by
  rw [exec_eq_enterFrom rfl, microProg_startOf_clear]
  rfl

theorem opsCycles_clearTransfers (c : Config) : opsCycles c clearTransfers = 2 * c.transferCycles :=
  opsCycles_transfers c [0x06, 0x01] false

/-- After its two transfers and its wait CLEAR ends with 0x01 as the last byte sent (44_clear.md R190, R192). -/
theorem enterEnd_clear {s : State} (hv : s.cfg.valid = true) :
    enterEnd (afterOps (clearTransfers ++ [.w s.cfg.nClear s.cfg.tClear]) (startOf .clear s)) = { s with
      opData := 0#8, opM := false, opLine := 0#2, opCount := 0#12, prog := .clear, pidx := 3#4,
      curByte := 0x01#8, rs := false, e := false, d := 0x1#4, half := .lo, ph := .post, cnt := 1, st := .idle,
      trace := s.trace ++ xfer s.cfg 0x06 false ++ xfer s.cfg 0x01 false ++ [.sleep s.cfg.tClear] } := by
  have hn : s.cfg.nClear ≠ 0 := Nat.one_le_iff_ne_zero.mp (valid_nClear hv)
  simp [startOf_clear, afterOps, clearTransfers, opEnd, hn, transferEnd, nextIdx, enterW, emit, lastCycle, enterEnd,
    endFlags, loNibble]

end Sys2Proof.Machine

/-! PROOFS. The statements of 44_clear.md. -/

namespace Sys2Proof.Proofs

open Sys2Proof.Machine Sys2Proof.Machine.Safety

/-- Settles O15: the program of CLEAR is two transfers and a wait; each begins when those before it have run their
cycles, and `END` comes after the wait. -/
theorem clearCompletes : Obligations.ClearCompletes := by
  intro s hv
  have hm := microProg_startOf_clear s
  have htwo := opsCycles_clearTransfers s.cfg
  have hfin : MicroOp.fin ∉ clearTransfers := by simp [clearTransfers]
  refine ⟨rfl, rfl, ⟨_, exec_clear s⟩, fun ps hr hl => ?second, fun ps hr hlo hhi => ?wait, fun ps hr hl => ?done⟩
  case second =>
    have hrun := run_command_ops (us := [.x 0x06 false]) hv rfl hm (by simp) hr hl
    exact ⟨_, hrun, rfl, rfl, rfl, rfl, rfl, rfl, rfl⟩
  case wait =>
    have hrun := run_command_wait hv rfl hm hfin hr (htwo ▸ hlo) (htwo ▸ hhi)
    exact ⟨_, hrun, rfl, rfl, rfl, rfl⟩
  case done =>
    have hcycles : opsCycles s.cfg (clearTransfers ++ [.w s.cfg.nClear s.cfg.tClear])
        = 2 * s.cfg.transferCycles + s.cfg.nClear := by rw [opsCycles_append, htwo]; rfl
    rw [run_command_ops (vs := [.fin]) hv rfl hm (by simp [clearTransfers]) hr (hl.trans hcycles.symm),
      ← enterEnd_clear hv]
    rfl

end Sys2Proof.Proofs

/-! PROOFS. The program of DELAY (30_encoding.md R80; 45_control.md R202). -/

namespace Sys2Proof.Machine

open Safety

theorem startOf_delay (k : BitVec 12) (s : State) : startOf (.delay k) s = { s with
    opData := k.extractLsb' 0 8, opM := k.getLsbD 8, opLine := k.extractLsb' 8 2, opCount := k, prog := .delay,
    pidx := 0#4 } := by
  simp [startOf, latch, progOf]

/-- The one wait of DELAY (45_control.md R202). -/
def delayWait (k : BitVec 12) (c : Config) : MicroOp := .w (k.toNat * c.nUnit) (Ratio.scale k.toNat c.tUnit)

theorem microProg_startOf_delay (k : BitVec 12) (s : State) :
    microProg (startOf (.delay k) s) = [delayWait k s.cfg, .fin] := by
  rw [startOf_delay]
  rfl

/-- Under a valid configuration a unit takes time, so only COUNT 0 waits no cycle (45_control.md R202). -/
theorem delay_cycles_ne_zero {k : BitVec 12} {c : Config} (hv : c.valid = true) (hk : k ≠ 0#12) :
    k.toNat * c.nUnit ≠ 0 :=
  Nat.mul_ne_zero (BitVec.toNat_ne_iff_ne.mpr hk) (Nat.one_le_iff_ne_zero.mp (valid_nUnit hv))

/-- DELAY 0 passes its wait over and is IDLE at the accepting edge (41_byte_transfer.md R131; 45_control.md R202). -/
theorem exec_delay_zero (s : State) :
    exec (.delay 0#12) s = .next { startOf (.delay 0#12) s with pidx := 1#4, st := .idle } := by
  have hnone : (0#12).toNat * s.cfg.nUnit = 0 := Nat.zero_mul _
  rw [exec_eq_enterFrom rfl, microProg_startOf_delay, delayWait, enterFrom_skip _ _ _ hnone, enterFrom,
    enterEnd_of_command (progOf_ne_init (.delay 0#12))]
  rfl

/-- The accepting edge of any other DELAY enters its wait (41_byte_transfer.md R131). -/
theorem exec_delay {k : BitVec 12} {s : State} (hv : s.cfg.valid = true) (hk : k ≠ 0#12) :
    exec (.delay k) s
      = .next (enterW (k.toNat * s.cfg.nUnit) (Ratio.scale k.toNat s.cfg.tUnit) (startOf (.delay k) s)) := by
  rw [exec_eq_enterFrom rfl, microProg_startOf_delay, delayWait, enterFrom_wait _ _ _ (delay_cycles_ne_zero hv hk)]

/-- After its wait DELAY ends with the sleep as its only event (45_control.md R202). -/
theorem enterEnd_delay {k : BitVec 12} {s : State} (hv : s.cfg.valid = true) (hk : k ≠ 0#12) :
    enterEnd (afterOps [delayWait k s.cfg] (startOf (.delay k) s)) = { startOf (.delay k) s with
      pidx := 1#4, cnt := 1, st := .idle, trace := s.trace ++ [.sleep (Ratio.scale k.toNat s.cfg.tUnit)] } := by
  have hend : opEnd (startOf (.delay k) s) (delayWait k s.cfg)
      = lastCycle (enterW (k.toNat * s.cfg.nUnit) (Ratio.scale k.toNat s.cfg.tUnit) (startOf (.delay k) s)) :=
    if_neg (delay_cycles_ne_zero hv hk)
  simp only [afterOps, List.foldl_cons, List.foldl_nil, hend]
  exact enterEnd_of_command (progOf_ne_init (.delay k))

/-! ### A reserved word at the transaction level -/

theorem tlWord_of_reserved {w : Word} {why : ReservedWord} (c : Config) (t : TLState)
    (hd : decode w = .reserved why) : tlWord c t w = { t with err := true } := by
  simp [tlWord, hd]

/-! ### The timer -/

/-- The invariant bounds the timer by its largest load, and a valid configuration holds that load in `CNT_W` bits
(45_control.md R206). -/
theorem Safety.EngineInv.cnt_lt {s : State} (hi : EngineInv s) : s.cnt < 2 ^ s.cfg.cntW :=
  hi.cnt.trans_lt (valid_fits hi.valid)

end Sys2Proof.Machine

/-! PROOFS. The statements of 45_control.md. -/

namespace Sys2Proof.Proofs

open Sys2Proof.Machine Sys2Proof.Machine.Safety

/-- Settles O16: the program of DELAY is one wait, passed over when COUNT is 0 and else counted down to its `END`. -/
theorem delayCompletes : Obligations.DelayCompletes := by
  intro k s hv q
  have hstart : startOf (.delay k) s = { q with pidx := 0#4 } := startOf_delay k s
  have hm := microProg_startOf_delay k s
  refine ⟨word_eq_add (encode_delay_toNat k), fun hk => ?zero, fun hk => ?wait⟩
  case zero =>
    subst hk
    exact ⟨rfl, by rw [exec_delay_zero, hstart]⟩
  case wait =>
    refine ⟨if_neg (BitVec.toNat_ne_iff_ne.mpr hk), ⟨_, by rw [exec_delay hv hk, hstart]; rfl⟩, fun ps hr hl => ?busy,
      fun ps hr hl => ?done⟩
    case busy =>
      have hrun := run_command_wait (us := []) hv rfl hm (by simp) hr (Nat.zero_le _) (by simpa [opsCycles] using hl)
      exact ⟨_, hrun, rfl, rfl⟩
    case done =>
      rw [run_command_ops (us := [delayWait k s.cfg]) (vs := [.fin]) hv rfl hm (by simp [delayWait]) hr hl, enterFrom,
        enterEnd_delay hv hk, hstart]

/-- Settles O42: a step keeps the invariant, which bounds the timer and the index. -/
theorem timerFitsItsWidth : Obligations.TimerFitsItsWidth := by
  intro s t hi h
  have ht : EngineInv t := invariantKeptByStep s t hi h
  exact ⟨ht.cnt_lt, ht.pidx⟩

/-- Settles O10: the program of NOP is `END` alone, which is entered at the accepting edge. -/
theorem nopCompletes : Obligations.NopCompletes := by
  refine ⟨rfl, fun _ => rfl, fun s => ?_⟩
  rw [exec_nop, enterEnd_of_command (progOf_ne_init .nop)]
  rfl

/-- Settles O17: the accepting edge of a reserved word is `setErr`, and the transaction level says the same. -/
theorem reservedWordSetsErrOnly : Obligations.ReservedWordSetsErrOnly := by
  intro w why hd
  refine ⟨fun p s hr hv hw hs => ?_, fun c t => tlWord_of_reserved c t hd⟩
  exact edge_of_reserved hr hv hs (hw ▸ hd)

end Sys2Proof.Proofs

/-! PROOFS. How long bring-up takes, which configurations a step refuses, and what a command stream owes after
`XFER.C 0x01` (70_reset_and_hazards.md R254, R262, R265, R270; 93_implementation_defined.md U6, U10). -/

namespace Sys2Proof.Config

/-! ### The boot requirements -/

/-- The counter holds the largest load exactly when it holds every load (92_eei_decisions.md D27). -/
theorem maxLoad_lt_iff (c : Config) (m : Nat) : c.maxLoad < m ↔
    c.nSettle < m ∧ c.nPulse < m ∧ c.nClear < m ∧ c.nPowerup < m ∧ 4095 * c.nUnit < m := by
  simp only [maxLoad, max_lt_iff]

/-- Boot requirement (1) of 70_reset_and_hazards.md R254, with every denominator and every load spelled out. -/
theorem valid_iff_requirements (c : Config) : c.valid = true ↔
    (0 < c.tSettle.den ∧ 0 < c.tPulse.den ∧ 0 < c.tClear.den ∧ 0 < c.tPowerup.den ∧ 0 < c.tUnit.den
        ∧ 0 < c.fClk.den ∧ 0 < c.typedSpeedDefault.den)
      ∧ 1 ≤ c.nSettle ∧ 1 ≤ c.nPulse ∧ 1 ≤ c.nClear ∧ 1 ≤ c.nUnit
      ∧ 45 * c.tClear.den ≤ 100 * c.tClear.num
      ∧ c.nSettle < 2 ^ c.cntW ∧ c.nPulse < 2 ^ c.cntW ∧ c.nClear < 2 ^ c.cntW ∧ c.nPowerup < 2 ^ c.cntW
      ∧ 4095 * c.nUnit < 2 ^ c.cntW := by
  rw [valid_iff, maxLoad_lt_iff]
  simp only [ratiosOk, Ratio.leq, decide_eq_true_iff, and_assoc, Nat.mul_comm c.tClear.num]

theorem valid_tClear_den {c : Config} (h : c.valid = true) : 0 < c.tClear.den := by
  obtain ⟨⟨-, -, hclear, -⟩, -⟩ := (valid_iff_requirements c).1 h
  exact hclear

end Sys2Proof.Config

namespace Sys2Proof.Machine

open Safety

/-! ### What an edge and a step answer -/

theorem enterFrom_ne_refused (us : List MicroOp) (s : State) (r : Refusal) : enterFrom us s ≠ .refused r := by
  induction us generalizing s with
  | nil => simp [enterFrom]
  | cons u us ih =>
    cases u with
    | cfg => exact ih _
    | x b m => simp [enterFrom]
    | w n t =>
      by_cases hn : n = 0
      · rw [enterFrom_skip us t s hn]
        exact ih _
      · simp [enterFrom_wait us t s hn]
    | fin => simp [enterFrom]

theorem phaseEnd_ne_refused (s : State) (r : Refusal) : phaseEnd s ≠ .refused r := by
  cases hp : s.ph with
  | pre => simp [phaseEnd_pre hp]
  | pulse => simp [phaseEnd_pulse hp]
  | post =>
    cases hh : s.half with
    | hi => simp [phaseEnd_post_hi hp hh]
    | lo => rw [phaseEnd_post_lo hp hh]; exact enterFrom_ne_refused _ _ r

/-- The engine refuses nothing at an edge: a word it decodes has a line number in range, and no other arm refuses
(30_encoding.md R73; 41_byte_transfer.md R137). -/
theorem edge_ne_refused (p : Ports) (s : State) (r : Refusal) : edge p s ≠ .refused r := by
  cases hp : p.rst with
  | true => simp [edge_of_rst hp]
  | false =>
    cases hs : s.st with
    | boot =>
      have hedge : edge p s = bootArm s := by simp [edge, hp, hs]
      rw [hedge]
      exact enterFrom_ne_refused _ _ r
    | idle =>
      cases hv : p.cmdValid with
      | false => simp [edge_of_quiet hp hv hs]
      | true =>
        cases hd : decode p.cmdWord with
        | reserved why => simp [edge_of_reserved hp hv hs hd]
        | legal i =>
          rw [edge_of_legal hp hv hs hd, exec_eq_enterFrom (decode_eq_legal_iff.1 hd).1]
          exact enterFrom_ne_refused _ _ r
    | nib =>
      by_cases hc : 1 < s.cnt
      · simp [edge, hp, hs, nibArm, hc]
      · rw [edge_of_phase_end hp hs (Nat.not_lt.mp hc)]
        exact phaseEnd_ne_refused s r
    | wait =>
      by_cases hc : 1 < s.cnt
      · simp [edge, hp, hs, waitArm, hc]
      · have hedge : edge p s = nextOp s := by simp [edge, hp, hs, waitArm, hc]
        rw [hedge]
        exact enterFrom_ne_refused _ _ r

theorem step_of_invalid {s : State} (hv : s.cfg.valid ≠ true) : step s = .refused .invalidConfig := if_neg hv

theorem step_of_foreignDrive {s : State} {l : LcdLine} {v : Bool} {ms : List HostMove} (hv : s.cfg.valid = true)
    (hh : s.host = .foreignDrive l v :: ms) : step s = .fault .foreignDriver := by
  have hd : drivesLine s = true := by simp [drivesLine, hh]
  rw [step, if_pos hv, if_pos hd]

/-- In a valid configuration a step faults on a foreign driver or is an edge, so it refuses nothing. -/
theorem step_ne_refused {s : State} (hv : s.cfg.valid = true) (r : Refusal) : step s ≠ .refused r := by
  cases hd : drivesLine s with
  | true => simp [step, hv, hd]
  | false =>
    rw [step_eq_edge hv hd]
    cases he : edge (hostPorts s) s with
    | next t => simp
    | fault f => simp [andThen]
    | refused q => exact absurd he (edge_ne_refused _ _ q)

/-! ### The duration of bring-up -/

/-- In `BOOT` edge 1 and the whole bring-up program are still to come (70_reset_and_hazards.md R270). -/
theorem remaining_boot {s : State} (h : s.st = .boot) : remaining s = initCycles s.cfg + 1 := by
  simp only [remaining, h, microProg, opsCycles, opCycles, initCycles]
  omega

/-! ### The duty after XFER.C 0x01 -/

theorem keepsBusyWindow_clear_display (c : Config) (is : List Instr) :
    keepsBusyWindow c 0 (.xferC 0x01 :: is) = keepsBusyWindow c (clearUnits c) is := rfl

theorem keepsBusyWindow_delay (c : Config) (owed : Nat) (k : BitVec 12) (is : List Instr) :
    keepsBusyWindow c owed (.delay k :: is) = keepsBusyWindow c (owed - k.toNat) is := rfl

/-- Any transfer sent while units are owed breaks the duty (70_reset_and_hazards.md R262). -/
theorem keepsBusyWindow_transfer {i : Instr} {owed : Nat} (c : Config) (is : List Instr) (howed : 0 < owed)
    (hi : (∃ b, i = .xferC b) ∨ (∃ b, i = .xferD b) ∨ (∃ n, i = .line n) ∨ i = .clear) :
    keepsBusyWindow c owed (i :: is) = false := by
  have hne : owed ≠ 0 := Nat.ne_of_gt howed
  have hnone : owedAfter c owed i = none := by
    rcases hi with ⟨b, rfl⟩ | ⟨b, rfl⟩ | ⟨n, rfl⟩ | rfl <;> exact if_neg hne
  simp [keepsBusyWindow, hnone]

end Sys2Proof.Machine

/-! PROOFS. The statements of 70_reset_and_hazards.md. -/

namespace Sys2Proof.Proofs

open Sys2Proof.Config Sys2Proof.Machine Sys2Proof.Machine.Safety

/-- Settles O21: an accepted command has its duration to go and `BOOT` the whole of bring-up, and an engine is IDLE
when what remains has passed and not before. -/
theorem commandDurations : Obligations.CommandDurations := by
  refine ⟨fun i s ps hw hi hs hr => ?command, fun s p ps hi hs hr => ?bringUp, fun s p why hs hp hv hd => ?reserved,
    by simp [transferCycles], by simp [transferCycles]⟩
  case command =>
    obtain ⟨t, hexec, ht, hrem⟩ := exec_inv hw hi hs
    have hcycles := idleReachedInRemaining t ps ht hr
    rw [hrem] at hcycles
    rw [hexec, andThen_next]
    cases i <;> exact hcycles
  case bringUp =>
    have hcycles := idleReachedInRemaining s (p :: ps) hi hr
    rw [remaining_boot hs, List.length_cons, Nat.add_lt_add_iff_right, Nat.add_right_cancel_iff] at hcycles
    exact hcycles
  case reserved => exact ⟨setErr s, edge_of_reserved hp hv hs hd, hs⟩

/-- Settles O46: only the check of the configuration answers `invalidConfig`, for the edge refuses nothing. -/
theorem invalidConfigurationRefused : Obligations.InvalidConfigurationRefused := by
  intro s
  rw [← valid_iff_requirements]
  exact ⟨fun h hv => step_ne_refused hv _ h, step_of_invalid⟩

/-- Settles O60: the units owed are a ceiling division; a DELAY lowers them, and a transfer needs none to be owed. -/
theorem busyWindowDuty : Obligations.BusyWindowDuty := by
  refine ⟨fun c hv => Ratio.ceilDiv_eq_ceil (valid_tClear_den hv) (valid_tUnit hv), by decide, fun c k i is => ?_⟩
  simp only [keepsBusyWindow_clear_display, keepsBusyWindow_delay, true_and]
  refine ⟨fun hk => ?enough, fun hi => ⟨fun hk => ?short, fun howed => keepsBusyWindow_transfer c is howed hi⟩⟩
  case enough => rw [Nat.sub_eq_zero_of_le hk]
  case short => exact keepsBusyWindow_transfer c is (Nat.sub_pos_of_lt hk) hi

/-- Settles O47: a step looks for a foreign driver before it runs the edge. -/
theorem foreignDriverFaults : Obligations.ForeignDriverFaults := fun _ _ _ _ hv hh => step_of_foreignDrive hv hh

end Sys2Proof.Proofs
